-- ==== Sys2Proof/Word.lean ====
section
/-! DEFINITION. The bit vectors of the RVM core: the machine's word, the operand byte and the immediate (R9, R11, R12). -/

namespace Sys2Proof

/-- "Word: a 32-bit unsigned integer, the machine's native memory and instruction unit" (R20). It is also the width of
the instruction pointer (R33) and of a recorded fault address (R40). -/
abbrev Word := BitVec 32

/-- The width of an opcode, of an operand byte and of an output character (R9). -/
abbrev Byte := BitVec 8

/-- The immediate field of format `AI` (R9, R109). -/
abbrev Imm16 := BitVec 16

/-- `MAX = 2^32 - 1`, the greatest word (42_arithmetic.md, its opening notation). -/
def maxWord : Nat := 2 ^ 32 - 1

end Sys2Proof
end

