-- ==== Sys2Proof/Machine/Alu.lean ====
section
/-! DEFINITION. The ALU (R4 (c), R204): unsigned, computed exactly on naturals (R12) and narrowed at the end. A result outside
`[0, MAX]` is no word: the operation answers `none`. -/

namespace Sys2Proof.Machine

/-- An exact result as a word, or `none` when it is above `MAX` (R204: "A wrapped value never reaches memory"). -/
def narrow (exact : Nat) : Option Word := if exact ≤ maxWord then some (BitVec.ofNat 32 exact) else none

/-- Checked add (R180). -/
def aluAdd (a b : Word) : Option Word := narrow (a.toNat + b.toNat)

/-- Checked subtract (R186): `none` when `b > a`. -/
def aluSub (a b : Word) : Option Word := if b.toNat > a.toNat then none else narrow (a.toNat - b.toNat)

/-- Checked multiply (R192). -/
def aluMul (a b : Word) : Option Word := narrow (a.toNat * b.toNat)

/-- The floor quotient (R198); `none` when the divisor is 0. -/
def aluDiv (a b : Word) : Option Word := if b.toNat = 0 then none else narrow (a.toNat / b.toNat)

/-- Compare: "equality of the two full 32-bit words" (R204, R210). -/
def aluEqual (a b : Word) : Bool := a == b

end Sys2Proof.Machine
end

