-- ==== Sys2Proof/Syntax.lean ====
section
/-! DEFINITION. The decoded instructions, one constructor per row of spec/opcode_table.json. -/

namespace Sys2Proof

/-- "Decoded Instruction: a tagged variant, one case per opcode, carrying only the operand fields that opcode uses" (R20),
with the case `unknown` of R114. Operands stand in the assembler's order (R111). -/
inductive Instr where
  /-- R160: copy a word. -/
  | mov (dst src : Byte)
  /-- R166: store an immediate. -/
  | str (dst : Byte) (imm : Imm16)
  /-- R180: checked add of an immediate. -/
  | adi (dst : Byte) (imm : Imm16)
  /-- R186: checked subtract of an immediate. -/
  | sui (dst : Byte) (imm : Imm16)
  /-- R213: unconditional jump. -/
  | jmp (target : Byte)
  /-- R216: jump if `ZERO` is set. -/
  | jz (target : Byte)
  /-- R210: compare two words for equality. -/
  | cmp (a b : Byte)
  /-- R230: print a character. -/
  | prn (addr : Byte)
  /-- R192: checked multiply. -/
  | mul (dst src : Byte)
  /-- R198: unsigned divide. -/
  | div (dst src : Byte)
  /-- R163: indirect load. -/
  | mop (dst src : Byte)
  /-- R232: halt. -/
  | eof
  /-- R146: any word whose opcode is not in the map of R111. -/
  | unknown (opcode : Byte)
  deriving DecidableEq, Repr

end Sys2Proof
end

