-- ==== Sys2Proof/Decode.lean ====
section
/-! DEFINITION. The encoding of 30_encoding.md: fields, opcode map, formats, the decoder (R114) and the encoder (R115). -/

namespace Sys2Proof

/-! ## Fields (R101) -/

/-- `opcode = w[31:24]`, "the high byte" (R101). -/
def opcodeField (w : Word) : Byte := w.extractLsb' 24 8

/-- `op1 = w[23:16]` (R101). -/
def op1Field (w : Word) : Byte := w.extractLsb' 16 8

/-- `op2_hi = w[15:8]` (R101). -/
def op2HiField (w : Word) : Byte := w.extractLsb' 8 8

/-- `op2_lo = w[7:0]` (R101; the layout wins over the prose, conflict C2). -/
def op2LoField (w : Word) : Byte := w.extractLsb' 0 8

/-- `imm16 = w[15:0]` (R101, R109). -/
def imm16Field (w : Word) : Imm16 := w.extractLsb' 0 16

/-- A word from its four bytes, the high byte first: the layout of R101, and the big-endian order in which an image holds a
word (R73, R74). -/
def wordOfBytes (b0 b1 b2 b3 : Byte) : Word := b0 ++ b1 ++ b2 ++ b3

/-- A word's four bytes as an image holds them, `w[31:24]` first (R73). -/
def bytesOfWord (w : Word) : List Byte := [opcodeField w, op1Field w, op2HiField w, op2LoField w]

/-! ## The opcode map (R111)

Kept apart from the decoder, as configuration: entry I1 says that these literals are unaudited (log entry 2). -/

/-- R111. -/
def Opcode.mov : Byte := 0x01
/-- R111. -/
def Opcode.str : Byte := 0x02
/-- R111. -/
def Opcode.adi : Byte := 0x03
/-- R111. -/
def Opcode.sui : Byte := 0x04
/-- R111. -/
def Opcode.jmp : Byte := 0x05
/-- R111. -/
def Opcode.jz : Byte := 0x06
/-- R111. -/
def Opcode.cmp : Byte := 0x07
/-- R111. -/
def Opcode.prn : Byte := 0x08
/-- R111. -/
def Opcode.mul : Byte := 0x09
/-- R111. -/
def Opcode.div : Byte := 0x0A
/-- R111. -/
def Opcode.mop : Byte := 0x0B
/-- R111. -/
def Opcode.eof : Byte := 0xFF

/-- The twelve opcodes of R111. The other 244 are unknown (R112). -/
def knownOpcodes : List Byte :=
  [Opcode.mov, Opcode.str, Opcode.adi, Opcode.sui, Opcode.jmp, Opcode.jz, Opcode.cmp, Opcode.prn, Opcode.mul, Opcode.div,
    Opcode.mop, Opcode.eof]

/-- Is this opcode one of R111? -/
def knownOpcode (opc : Byte) : Bool := knownOpcodes.contains opc

/-- The opcode byte of an instruction (R111; an unknown instruction keeps the byte it was read from, R114). -/
def opcodeOf : Instr → Byte
  | .mov _ _ => Opcode.mov
  | .str _ _ => Opcode.str
  | .adi _ _ => Opcode.adi
  | .sui _ _ => Opcode.sui
  | .jmp _ => Opcode.jmp
  | .jz _ => Opcode.jz
  | .cmp _ _ => Opcode.cmp
  | .prn _ => Opcode.prn
  | .mul _ _ => Opcode.mul
  | .div _ _ => Opcode.div
  | .mop _ _ => Opcode.mop
  | .eof => Opcode.eof
  | .unknown opc => opc

/-! ## Decode (R114) -/

/-- The decoder, total on all `2^32` words (R114). Ignored fields are never looked at (R108); `mul` and `div` use the layout
of `mov` (R105, decision D4), and `cmp` takes its second address from `op2_hi` (R107). -/
def decode (w : Word) : Instr :=
  if opcodeField w = Opcode.mov then .mov (op1Field w) (op2LoField w)
  else if opcodeField w = Opcode.str then .str (op1Field w) (imm16Field w)
  else if opcodeField w = Opcode.adi then .adi (op1Field w) (imm16Field w)
  else if opcodeField w = Opcode.sui then .sui (op1Field w) (imm16Field w)
  else if opcodeField w = Opcode.jmp then .jmp (op1Field w)
  else if opcodeField w = Opcode.jz then .jz (op1Field w)
  else if opcodeField w = Opcode.cmp then .cmp (op1Field w) (op2HiField w)
  else if opcodeField w = Opcode.prn then .prn (op1Field w)
  else if opcodeField w = Opcode.mul then .mul (op1Field w) (op2LoField w)
  else if opcodeField w = Opcode.div then .div (op1Field w) (op2LoField w)
  else if opcodeField w = Opcode.mop then .mop (op1Field w) (op2LoField w)
  else if opcodeField w = Opcode.eof then .eof
  else .unknown (opcodeField w)

/-- Why a byte stream yields no instruction. No word is refused (R113): the one reason is that no whole word is there. -/
inductive DecodeReject where
  /-- Fewer than four bytes are left, and an instruction is exactly one 32-bit word (R100). Raised by `decodeBytes` only;
  the engine fetches whole words, so no step meets it. Safe: nothing is decoded. -/
  | truncated
  deriving DecidableEq, Repr

/-- One instruction from the front of an image's byte stream, with the bytes after it (R73, R74, R100). -/
def decodeBytes : List Byte → Except DecodeReject (Instr × List Byte)
  | b0 :: b1 :: b2 :: b3 :: rest => .ok (decode (wordOfBytes b0 b1 b2 b3), rest)
  | _ => .error .truncated

/-! ## Encode (R115) -/

/-- The encoder: the canonical word of an instruction, every ignored field 0. It "is defined for every case except
`Unknown`" (R115). -/
def encode : Instr → Option Word
  | .mov d s => some (wordOfBytes Opcode.mov d 0 s)
  | .str d i => some (wordOfBytes Opcode.str d (i.extractLsb' 8 8) (i.extractLsb' 0 8))
  | .adi d i => some (wordOfBytes Opcode.adi d (i.extractLsb' 8 8) (i.extractLsb' 0 8))
  | .sui d i => some (wordOfBytes Opcode.sui d (i.extractLsb' 8 8) (i.extractLsb' 0 8))
  | .jmp t => some (wordOfBytes Opcode.jmp t 0 0)
  | .jz t => some (wordOfBytes Opcode.jz t 0 0)
  | .cmp a b => some (wordOfBytes Opcode.cmp a b 0)
  | .prn a => some (wordOfBytes Opcode.prn a 0 0)
  | .mul d s => some (wordOfBytes Opcode.mul d 0 s)
  | .div d s => some (wordOfBytes Opcode.div d 0 s)
  | .mop d s => some (wordOfBytes Opcode.mop d 0 s)
  | .eof => some (wordOfBytes Opcode.eof 0 0 0)
  | .unknown _ => none

/-! ## Formats and canonical words (R102, R108) -/

/-- The five operand formats (R102). -/
inductive Format where
  /-- Zero-operand (R103). -/
  | z
  /-- One address (R104). -/
  | a
  /-- Two addresses (R105). -/
  | aa
  /-- Address and immediate (R106). -/
  | ai
  /-- Two-address compare (R107). -/
  | ac
  deriving DecidableEq, Repr

/-- The format of an opcode (R102). All 24 low bits of an unknown word are ignored (R146), as in format `Z`. -/
def formatOf (opc : Byte) : Format :=
  if opc = Opcode.mov ∨ opc = Opcode.mop ∨ opc = Opcode.mul ∨ opc = Opcode.div then .aa
  else if opc = Opcode.str ∨ opc = Opcode.adi ∨ opc = Opcode.sui then .ai
  else if opc = Opcode.jmp ∨ opc = Opcode.jz ∨ opc = Opcode.prn then .a
  else if opc = Opcode.cmp then .ac
  else .z

/-- The bits of a word that a format uses (R103 to R107). -/
def usedMask : Format → Word
  | .z => 0xFF000000
  | .a => 0xFFFF0000
  | .aa => 0xFFFF00FF
  | .ai => 0xFFFFFFFF
  | .ac => 0xFFFFFF00

/-- The word with its ignored fields cleared (R108). -/
def canonicalise (w : Word) : Word := w &&& usedMask (formatOf (opcodeField w))

/-- "A canonical word has every ignored field 0" (R108). -/
def canonical (w : Word) : Bool := canonicalise w = w

/-! ## The opcode table's bits -/

/-- The instruction word of a table row's `nbits` bits `w`; every bit above them is 0. -/
def tableWord (nbits w : Nat) : Word := BitVec.ofNat 32 (w % 2 ^ min nbits 32)

/-- The instruction the decoder reads from the word numbered as spec/opcode_table.json numbers it: the word is laid out as an
image holds it, high byte first, and given to `decodeBytes`. -/
def decodeTableWord (nbits w : Nat) : Option Instr :=
  match decodeBytes (bytesOfWord (tableWord nbits w)) with
  | .ok (i, _) => some i
  | .error _ => none

end Sys2Proof
end

