-- ==== Sys2Proof/Config.lean ====
section
/-! DEFINITION. What an implementation fixes: the Memory Unit's capacity (R8, decision D1), and the one value the spec leaves open,
the Memory Unit's contents after a failed load (R294, entry I4). The opcode map, which entry I1 also calls configuration, is in
Sys2Proof/Decode.lean beside the decoder that uses it. -/

namespace Sys2Proof.Config

/-- The default capacity `N`, in words (R8). -/
def memWordsDefault : Nat := 500

/-- The greatest capacity the spec allows: `N <= 2^32 - 1` (R8, decision D1). -/
def memWordsMax : Nat := 2 ^ 32 - 1

/-- The capacities the spec covers, `1 <= N <= 2^32 - 1` (R8). It says nothing of any other (entry I9: refuse). -/
def capacityOk (n : Nat) : Bool := 1 ≤ n && n ≤ memWordsMax

/-- FREE VALUE (log entry 6, safe): the byte found at a byte address of the Memory Unit after a failed load. "What the
Memory Unit holds after a failed load is not specified" (R294), and entry I4 says 'any value'. It has no body, so no proof
can use what it is; the first argument is the model's draw counter, so that two failed loads need not agree. -/
opaque failedLoadByte : Nat → Nat → Byte

end Sys2Proof.Config
end

