-- ==== Sys2Proof/Machine/State.lean ====
section
/-! DEFINITION. The state of the RVM core as plain data (10_state.md), the reasons a step can stop, and reset (R47, R290). -/

namespace Sys2Proof.Machine

/-- The Memory Unit's contents as (byte address, byte) cells in one canonical form (Memory.wf in Machine/Ops.lean). The spec's
memory is an array of 32-bit words (R42, R70); word `i` is the four bytes at `4i .. 4i+3`, its high byte first, which is where
the image holds them (R73). The byte addresses are the model's way to write words down (log entry 3); no instruction sees them. -/
abbrev Memory := List Host.Cell

/-- `RUNSTATE` (R36). -/
inductive RunState where
  /-- Before the program image has been loaded, and after a failed load. -/
  | idle
  /-- The engine takes steps (R140). -/
  | running
  /-- Terminal (R148, R286). -/
  | halted
  deriving DecidableEq, Repr

/-- `FAULT`, the fault record (R40). -/
inductive FaultRecord where
  /-- No fatal fault. -/
  | none
  /-- An index outside `[0, N)`: the faulting instruction's `ip` and the index. -/
  | addressFault (fip addr : Word)
  /-- A `div` that found a zero divisor: its `ip`. -/
  | arithmeticFault (fip : Word)
  deriving DecidableEq, Repr

/-- The `image` input of the load interface (R250, R292): what the host presents at boot. -/
inductive BootImage where
  /-- Nothing has been presented. -/
  | absent
  /-- An image that cannot be read (R292). -/
  | unreadable
  /-- The image's byte stream. -/
  | bytes (image : List Byte)
  deriving DecidableEq, Repr

/-- Everything the spec gives the machine, and four fields the boundary needs (`haltEvents`, `loadError`, `image`, and the
model's own `freeDraws`). -/
structure State where
  /-- `N`, the capacity in words: a build parameter (R8; log entry 1). No step writes it. -/
  memWords : Nat
  /-- `mem`, the Memory Unit (R42). -/
  mem : Memory
  /-- `ip`, the index of the word to fetch (R32, R33). -/
  ip : Word
  /-- `HALT` (R37). -/
  halt : Bool
  /-- `ZERO` (R38). -/
  zero : Bool
  /-- `OVF` (R39). -/
  ovf : Bool
  /-- `FAULT` (R40). -/
  fault : FaultRecord
  /-- `RUNSTATE` (R36). -/
  runState : RunState
  /-- `OUTQ`, its head the oldest entry (R43). -/
  outq : List Byte
  /-- `HALT_SENT` (R45). -/
  haltSent : Bool
  /-- How many halt events the status output has presented (`halt_event`, R250; R244 allows one per run). A counter is the
  model's way to hold them (DESIGN CHOICE, log entry 11). -/
  haltEvents : Nat
  /-- The `load_error` output (R250, R294); its 0 at reset is the model's (DESIGN CHOICE, log entry 10). -/
  loadError : Bool
  /-- The `image` input, boot only (R250). The host presents it; no step writes it. It is `absent` at reset (DESIGN CHOICE, log
  entry 9). -/
  image : BootImage
  /-- The MODEL's own: how often the free value of Config has been drawn (log entry 6). -/
  freeDraws : Nat
  deriving DecidableEq, Repr

/-- Why the model stops with a fault and no state: never. The spec describes what each fatal fault does to the state (R268),
so a fault is a next state with `FAULT` written, and the type has no constructor (log entry 18). -/
inductive Fault where
  deriving DecidableEq, Repr

/-- Why the model gives no meaning. -/
inductive Refusal where
  /-- An instruction with no meaning yet. No arm of exec raises it. Safe: nothing is said of the instruction. -/
  | notModelled (mnemonic : String)
  /-- The capacity is outside `1 <= N <= 2^32 - 1`, of which the spec says nothing (R8; entry I9: refuse). Raised by `step`
  only. Safe: nothing is said of such a build. -/
  | capacityOutOfRange
  deriving DecidableEq, Repr

/-- The state after reset of a core built with capacity `n` (R47, R290). -/
def State.resetWith (n : Nat) : State where
  memWords := n
  mem := []
  ip := 0
  halt := false
  zero := false
  ovf := false
  fault := .none
  runState := .idle
  outq := []
  haltSent := false
  haltEvents := 0
  loadError := false
  image := .absent
  freeDraws := 0

/-- The state after reset (R47, R290) of a core of the default capacity, 500 words (R8). -/
def State.reset : State := State.resetWith Config.memWordsDefault

end Sys2Proof.Machine
end

