-- ==== Sys2Proof/Machine/Ops.lean ====
section
/-! DEFINITION. The named operations over memory and registers: bytes and words of the Memory Unit, the updates of the state,
the primitives of R14 to R18, the end of a step (R143, R144), the halt event (R244), and taking a fatal fault (R268). There is
no return from one (R272), so no operation for it. -/

namespace Sys2Proof.Machine

/-! ## The Memory Unit's bytes and words -/

/-- What a byte address that is not listed reads as: the Memory Unit is "zero-initialized" (R42). -/
def unlistedByte : Byte := 0

/-- The byte at a byte address. -/
def Memory.readByte (m : Memory) (a : Nat) : Byte :=
  match m with
  | [] => unlistedByte
  | c :: rest => if c.1 = a then c.2 else Memory.readByte rest a

/-- The memory without the cells of one byte address. -/
def Memory.erase (m : Memory) (a : Nat) : Memory := m.filter fun c => c.1 != a

/-- A cell put before the first cell of a higher address. -/
def Memory.insertCell (a : Nat) (b : Byte) (m : Memory) : Memory :=
  match m with
  | [] => [(a, b)]
  | c :: rest => if a < c.1 then (a, b) :: c :: rest else c :: Memory.insertCell a b rest

/-- Writes one byte. Writing what an unlisted address reads as removes the cell, so that equal memories are equal lists. -/
def Memory.writeByte (m : Memory) (a : Nat) (b : Byte) : Memory :=
  if b = unlistedByte then m.erase a else Memory.insertCell a b (m.erase a)

/-- The canonical form: addresses strictly rising, and no cell holds what an unlisted address reads as. -/
abbrev Memory.wf (m : Memory) : Prop :=
  m.Pairwise (fun c d => c.1 < d.1) ∧ ∀ c ∈ m, c.2 ≠ unlistedByte

/-- Every listed byte belongs to a word of `[0, n)`. -/
abbrev Memory.below (m : Memory) (n : Nat) : Prop := ∀ c ∈ m, c.1 < 4 * n

/-- The word at index `i` (R42): its four bytes, high byte first (R73). -/
def Memory.readWord (m : Memory) (i : Nat) : Word :=
  wordOfBytes (m.readByte (4 * i)) (m.readByte (4 * i + 1)) (m.readByte (4 * i + 2)) (m.readByte (4 * i + 3))

/-- Writes the word at index `i`. -/
def Memory.writeWord (m : Memory) (i : Nat) (v : Word) : Memory :=
  (((m.writeByte (4 * i) (opcodeField v)).writeByte (4 * i + 1) (op1Field v)).writeByte (4 * i + 2)
    (op2HiField v)).writeByte (4 * i + 3) (op2LoField v)

/-! ## The updates of the state, each of one field -/

/-- `ip <- v`. -/
def State.setIp (s : State) (v : Word) : State := { s with ip := v }

/-- `ZERO <- b` (R38). -/
def State.setZero (s : State) (b : Bool) : State := { s with zero := b }

/-- `OVF <- b` (R39). -/
def State.setOvf (s : State) (b : Bool) : State := { s with ovf := b }

/-- `HALT <- 1`. No operation clears it (R37). -/
def State.setHalt (s : State) : State := { s with halt := true }

/-- `FAULT <- r` (R40). -/
def State.setFault (s : State) (r : FaultRecord) : State := { s with fault := r }

/-- `RUNSTATE <- r` (R36). -/
def State.setRunState (s : State) (r : RunState) : State := { s with runState := r }

/-- `mem <- m`. -/
def State.setMem (s : State) (m : Memory) : State := { s with mem := m }

/-- The word `mem[a]` (R13). It is `MemRead(a, 1)` of R14 after its check, which is `checkAddr`. -/
def State.memRead (s : State) (a : Word) : Word := s.mem.readWord a.toNat

/-- `mem[a] <- v` (R13). It is `MemWrite(a, 1, v)` of R15 after its check, which is `checkAddr`. -/
def State.memWrite (s : State) (a v : Word) : State := s.setMem (s.mem.writeWord a.toNat v)

/-- `Emit(c)`: appends the byte at the tail of `OUTQ` (R17, R236). The FIFO is unbounded (decision D15). -/
def State.emit (s : State) (c : Byte) : State := { s with outq := s.outq ++ [c] }

/-! ## Halting and faulting -/

/-- `SignalHalt()` (R244): sets `HALT_SENT` and presents one halt event on the status output. "It makes the event happen
'exactly once' per run" (R45), so nothing is presented when it is set already (log entry 8). -/
def signalHalt (s : State) : State :=
  if s.haltSent then s else { s with haltSent := true, haltEvents := s.haltEvents + 1 }

/-- Fatal-fault entry (R268): `FAULT`, `HALT` and `RUNSTATE` are written and the halt event is presented; `ip`, `mem`, `ZERO`,
`OVF` and `OUTQ` stay as the faulting instruction found them. -/
def faultEntry (r : FaultRecord) (s : State) : State :=
  signalHalt (((s.setFault r).setHalt).setRunState .halted)

/-- What a meaning answers. -/
abbrev Result := Host.Outcome State Fault Refusal

/-- `raise AddressFault(ip, a)` (R18): the instruction ends at once with fatal-fault entry. -/
def raiseAddressFault (a : Word) (s : State) : Result := .next (faultEntry (.addressFault s.ip a) s)

/-- `raise ArithmeticFault(ip)` (R18). -/
def raiseArithmeticFault (s : State) : Result := .next (faultEntry (.arithmeticFault s.ip) s)

/-- Is the index inside the Memory Unit, `a < N` (R14)? -/
def State.inMemory (s : State) (a : Word) : Bool := a.toNat < s.memWords

/-- `CheckAddr(a)` before the rest of an instruction (R16): an index outside `[0, N)` raises AddressFault and the rest does
not run. A check stands before every write of its instruction (R266). -/
def checkAddr (a : Word) (s : State) (rest : Result) : Result :=
  if s.inMemory a then rest else raiseAddressFault a s

/-- The end of a step whose instruction has completed without raising (R144, R145): when `HALT` is set, the engine enters
Halted and `ip` stays; otherwise `ip <- next_ip`. The argument is the spec's `next_ip` (R13, R143), which lives only inside a
step (log entry 16). -/
def retire (nextIp : Word) (s : State) : Result :=
  if s.halt then .next (signalHalt (s.setRunState .halted)) else .next (s.setIp nextIp)

/-- The `next_ip` of an instruction that does not jump, `ip + 1` (R143). It is exact at every `ip < N` (R33; log entry 15). -/
def State.followingIp (s : State) : Word := s.ip + 1

end Sys2Proof.Machine
end

