-- ==== Sys2Proof/Machine/Flags.lean ====
section
/-! DEFINITION. The flag computations: `OVF` of a checked operation (R39), `ZERO` of a subtraction (R186) and of a compare
(R210). `HALT` is written by `eof` and by fatal-fault entry only (R37). -/

namespace Sys2Proof.Machine

/-- `OVF` after a checked operation: 1 when the exact result is no word, 0 when it is (R39, decision D7). -/
def overflowFlag (result : Option Word) : Bool := result.isNone

/-- `ZERO` after a checked subtraction: 1 when it succeeds with result 0, unchanged otherwise (R186, decision D6). -/
def zeroAfterSub (zero : Bool) (result : Option Word) : Bool :=
  match result with
  | some r => if r = 0 then true else zero
  | none => zero

/-- `ZERO` after a compare: 1 when the words are equal, 0 when they are not (R210). -/
def zeroAfterCompare (x y : Word) : Bool := aluEqual x y

/-- The write of a checked operation (R204): on a word result the destination takes it and `OVF` is cleared; on overflow or
underflow the destination keeps its value and `OVF` is set. -/
def State.writeChecked (s : State) (a : Word) (result : Option Word) : State :=
  match result with
  | some r => (s.memWrite a r).setOvf (overflowFlag result)
  | none => s.setOvf (overflowFlag result)

end Sys2Proof.Machine
end

