-- ==== Sys2Proof/Machine/Operands.lean ====
section
/-! DEFINITION. The operand forms of 30_encoding.md: the direct address, the immediate, the jump target, and the indirect
pointer of `mop`. -/

namespace Sys2Proof.Machine

/-- An address field: "an 8-bit unsigned Memory Unit index in `[0, 255]`", used "without offset, scaling, base register or
indexing" (R110). -/
def directAddr (field : Byte) : Word := field.setWidth 32

/-- An immediate operand: `zext_32(imm16)`, never sign-extended, scaled or shifted (R109). -/
def immediate (imm : Imm16) : Word := imm.setWidth 32

/-- A jump target: "an 8-bit absolute word index", not relative to `ip` (R110). -/
def jumpTarget (field : Byte) : Word := field.setWidth 32

/-- The value of a direct operand, `mem[field]`. -/
def State.operand (s : State) (field : Byte) : Word := s.memRead (directAddr field)

/-- The value of the indirect source of `mop`, `mem[mem[field]]`: the pointer is the whole 32-bit word (R163, decision D22). -/
def State.indirectOperand (s : State) (field : Byte) : Word := s.memRead (s.operand field)

/-- Writes the word that an address field names. -/
def State.writeOperand (s : State) (field : Byte) (v : Word) : State := s.memWrite (directAddr field) v

/-- The check of one direct address field (R266). -/
def checkField (field : Byte) (s : State) (rest : Result) : Result := checkAddr (directAddr field) s rest

/-- The checks of two direct address fields, the first field first (R266, decision D10). -/
def checkFields (first second : Byte) (s : State) (rest : Result) : Result :=
  checkField first s (checkField second s rest)

end Sys2Proof.Machine
end

