-- ==== Sys2Proof/Machine/Arithmetic.lean ====
section
/-! DEFINITION. 42_arithmetic.md: `adi`, `sui`, `mul`, `div`. -/

namespace Sys2Proof.Machine

/-- `adi dst, imm16`: checked add; writes `OVF` always and `ZERO` never (R180). -/
def execAdi (dst : Byte) (imm : Imm16) (s : State) : Result :=
  checkField dst s
    (retire s.followingIp (s.writeChecked (directAddr dst) (aluAdd (s.operand dst) (immediate imm))))

/-- `sui dst, imm16`: checked subtract; writes `OVF` always, and sets `ZERO` when it succeeds with result 0 (R186). -/
def execSui (dst : Byte) (imm : Imm16) (s : State) : Result :=
  checkField dst s
    (retire s.followingIp
      ((s.writeChecked (directAddr dst) (aluSub (s.operand dst) (immediate imm))).setZero
        (zeroAfterSub s.zero (aluSub (s.operand dst) (immediate imm)))))

/-- `mul dst, src`: checked multiply; writes `OVF` always and `ZERO` never (R192). -/
def execMul (dst src : Byte) (s : State) : Result :=
  checkFields dst src s
    (retire s.followingIp (s.writeChecked (directAddr dst) (aluMul (s.operand dst) (s.operand src))))

/-- `div dst, src`: floor quotient, no flag written; a zero divisor raises ArithmeticFault after both address checks (R198). -/
def execDiv (dst src : Byte) (s : State) : Result :=
  checkFields dst src s
    (match aluDiv (s.operand dst) (s.operand src) with
      | some q => retire s.followingIp (s.writeOperand dst q)
      | none => raiseArithmeticFault s)

end Sys2Proof.Machine
end

