-- ==== Sys2Proof/Machine/CompareControl.lean ====
section
/-! DEFINITION. 43_compare_control.md: `cmp`, `jmp`, `jz`. -/

namespace Sys2Proof.Machine

/-- `cmp a, b`: `ZERO <- (mem[a] = mem[b])`; memory and the other flags are not written (R210). -/
def execCmp (a b : Byte) (s : State) : Result :=
  checkFields a b s
    (retire s.followingIp (s.setZero (zeroAfterCompare (s.operand a) (s.operand b))))

/-- `jmp target`: `next_ip <- target`, which is not checked here (R213, decision D11). -/
def execJmp (target : Byte) (s : State) : Result := retire (jumpTarget target) s

/-- `jz target`: `next_ip <- target` when `ZERO` is 1, and the following word otherwise (R216). -/
def execJz (target : Byte) (s : State) : Result :=
  retire (if s.zero then jumpTarget target else s.followingIp) s

end Sys2Proof.Machine
end

