-- ==== Sys2Proof/Machine/DataMovement.lean ====
section
/-! DEFINITION. 41_data_movement.md: `mov`, `mop`, `str`. -/

namespace Sys2Proof.Machine

/-- `mov dst, src`: `mem[dst] <- mem[src]`, no flag written (R160). -/
def execMov (dst src : Byte) (s : State) : Result :=
  checkFields dst src s (retire s.followingIp (s.writeOperand dst (s.operand src)))

/-- `mop dst, src`: `mem[dst] <- mem[mem[src]]`. The pointer word is checked after both fields and before the write (R163). -/
def execMop (dst src : Byte) (s : State) : Result :=
  checkFields dst src s
    (checkAddr (s.operand src) s (retire s.followingIp (s.writeOperand dst (s.indirectOperand src))))

/-- `str dst, imm16`: `mem[dst] <- zext_32(imm16)`, no flag written (R166). -/
def execStr (dst : Byte) (imm : Imm16) (s : State) : Result :=
  checkField dst s (retire s.followingIp (s.writeOperand dst (immediate imm)))

end Sys2Proof.Machine
end

