-- ==== Sys2Proof/Machine/OutputHalt.lean ====
section
/-! DEFINITION. 44_output_halt.md: `prn`, `eof`; and the unknown opcode of 40_engine_cycle.md. -/

namespace Sys2Proof.Machine

/-- The byte that `prn` sends, `v[7:0]` (R230, R75). -/
def outputByte (v : Word) : Byte := v.extractLsb' 0 8

/-- `prn addr`: appends the low byte of `mem[addr]` to `OUTQ` (R230). -/
def execPrn (addr : Byte) (s : State) : Result :=
  checkField addr s (retire s.followingIp (s.emit (outputByte (s.operand addr))))

/-- `eof`: `HALT <- 1`; the step then enters Halted, and `ip` keeps the index of the `eof` word (R232). -/
def execEof (s : State) : Result := retire s.followingIp s.setHalt

/-- An unknown opcode: nothing but the advance of `ip` (R146). Its diagnostic is no architectural state (R147; log entry 14). -/
def execUnknown (_opcode : Byte) (s : State) : Result := retire s.followingIp s

end Sys2Proof.Machine
end

