-- ==== Sys2Proof/Machine/Dispatch.lean ====
section
/-! DEFINITION. The dispatch of R142: each instruction to its one rule. -/

namespace Sys2Proof.Machine

def exec (i : Instr) (s : State) : Host.Outcome State Fault Refusal :=
  match i with
  | .mov dst src => Sys2Proof.Machine.execMov dst src s
  | .str dst imm => Sys2Proof.Machine.execStr dst imm s
  | .adi dst imm => Sys2Proof.Machine.execAdi dst imm s
  | .sui dst imm => Sys2Proof.Machine.execSui dst imm s
  | .jmp target => Sys2Proof.Machine.execJmp target s
  | .jz target => Sys2Proof.Machine.execJz target s
  | .cmp a b => Sys2Proof.Machine.execCmp a b s
  | .prn addr => Sys2Proof.Machine.execPrn addr s
  | .mul dst src => Sys2Proof.Machine.execMul dst src s
  | .div dst src => Sys2Proof.Machine.execDiv dst src s
  | .mop dst src => Sys2Proof.Machine.execMop dst src s
  | .eof => Sys2Proof.Machine.execEof s
  | .unknown opcode => Sys2Proof.Machine.execUnknown opcode s

end Sys2Proof.Machine
end

