-- ==== Sys2Proof/Machine/Fetch.lean ====
section
/-! DEFINITION. Fetch (R141), and the engine's whole step (R145). -/

namespace Sys2Proof.Machine

/-- The instruction word at `ip`, or nothing when `ip >= N` (R141). -/
def fetch (s : State) : Option Word := if s.inMemory s.ip then some (s.memRead s.ip) else none

/-- `Step()` of R145, of an engine that is Running: fetch, decode afresh (R142), execute; the meanings end with the halt check
or `ip <- next_ip` of R144 themselves (`retire`). A fetch at `ip >= N` raises `AddressFault(ip, ip)` (R141). -/
def engineStep (s : State) : Result :=
  match fetch s with
  | some w => exec (decode w) s
  | none => raiseAddressFault s.ip s

/-- The state with an instruction word placed where the engine fetches next and the engine started: it stands for the load
of a program whose next word is that one (log entry 5). -/
def placeFetchWord (s : State) (w : Word) : State := (s.memWrite s.ip w).setRunState .running

end Sys2Proof.Machine
end

