-- ==== Sys2Proof/Machine/Loader.lean ====
section
/-! DEFINITION. The boot-time load (R292 to R297), done by the loader in one step while `RUNSTATE = Idle`. -/

namespace Sys2Proof.Machine

/-- May the image be loaded into `n` words? Its length is a multiple of 4 and it holds at most `n` words (R292, decision D16). -/
def imageFits (image : List Byte) (n : Nat) : Bool := image.length % 4 = 0 && image.length / 4 ≤ n

/-- Stores the image's words from index `i` on, four bytes to a word, big-endian (R73, R292). -/
def loadWords (m : Memory) (i : Nat) (image : List Byte) : Memory :=
  match image with
  | b0 :: b1 :: b2 :: b3 :: rest => loadWords (m.writeWord i (wordOfBytes b0 b1 b2 b3)) (i + 1) rest
  | _ => m

/-- A successful load: the words are stored from index 0 and `RUNSTATE <- Running` (R292, R293). -/
def loadImage (image : List Byte) (s : State) : State := (s.setMem (loadWords s.mem 0 image)).setRunState .running

/-- The Memory Unit after a failed load, bytes `0 .. n-1`: free values (R294, entry I4; log entry 6). -/
def failedLoadMemory (draw n : Nat) : Memory :=
  match n with
  | 0 => []
  | k + 1 => (failedLoadMemory draw k).writeByte k (Config.failedLoadByte draw k)

/-- `LoadFail()` (R294): `load_error = 1`, `RUNSTATE` stays Idle, no halt event and nothing appended to `OUTQ`. -/
def loadFail (s : State) : State :=
  { s with mem := failedLoadMemory s.freeDraws (4 * s.memWords), loadError := true, freeDraws := s.freeDraws + 1 }

/-- What happens while `RUNSTATE = Idle`: an image that the host has presented is loaded, once and in one step (R292, R297; log
entry 9). With none presented, and after a failed load, the core stays as it is: "the run does not start" (R36, R294). -/
def loaderStep (s : State) : State :=
  if s.loadError then s
  else
    match s.image with
    | .absent => s
    | .unreadable => loadFail s
    | .bytes image => if imageFits image s.memWords then loadImage image s else loadFail s

end Sys2Proof.Machine
end

