-- ==== Sys2Proof/Machine/Step.lean ====
section
/-! DEFINITION. One step of the block: the loader's while Idle, the engine's while Running, none when Halted. -/

namespace Sys2Proof.Machine

/-- One step. The engine takes one only while `RUNSTATE = Running` (R140); while Idle the loader may act (R292); a Halted
engine takes no further steps and every piece of state keeps its value (R148, R286), so the answer is the same state (log
entry 4). A capacity the spec does not cover is refused (R8, entry I9). -/
def step (s : State) : Host.Outcome State Fault Refusal :=
  if Config.capacityOk s.memWords then
    match s.runState with
    | .idle => .next (loaderStep s)
    | .running => engineStep s
    | .halted => .next s
  else .refused .capacityOutOfRange

/-- `s` with the instruction of a table row's bits stored where `step` fetches next, and the engine Running. -/
def State.withFetchWord (s : State) (nbits w : Nat) : State := placeFetchWord s (tableWord nbits w)

end Sys2Proof.Machine
end

