-- ==== Sys2Proof/Machine/Boundary.lean ====
section
/-! DEFINITION. The block's boundary (R238, R250): its output signals, the two things a host may do, and the moves of the block and
its host together. R252 gives the host no other move. -/

namespace Sys2Proof.Machine

/-! ## Signals (R238, R250) -/

/-- `out_valid`: `OUTQ` is not empty (R238). -/
def outValid (s : State) : Bool := !s.outq.isEmpty

/-- `out_data`: the head of `OUTQ` while `out_valid = 1` (R238); the spec gives it no value otherwise, and neither does this
(log entry 12). -/
def outData (s : State) : Option Byte := s.outq.head?

/-- `halted` (R250). -/
def haltedOut (s : State) : Bool := s.runState == .halted

/-- `fault_kind`, the kind code of R40 and R260. -/
def faultKind (s : State) : BitVec 2 :=
  match s.fault with
  | .none => 0
  | .addressFault _ _ => 1
  | .arithmeticFault _ => 2

/-- `fault_ip` (R250); the spec gives it no value while `FAULT` is `None`, and neither does this (log entry 12). -/
def faultIp (s : State) : Option Word :=
  match s.fault with
  | .none => none
  | .addressFault fip _ => some fip
  | .arithmeticFault fip => some fip

/-- `fault_addr`: "0 unless the kind is AddressFault" (R250). -/
def faultAddr (s : State) : Word :=
  match s.fault with
  | .none => 0
  | .addressFault _ addr => addr
  | .arithmeticFault _ => 0

/-- "A run is complete when `RUNSTATE = Halted` and `OUTQ` is empty" (R248). -/
def runComplete (s : State) : Bool := haltedOut s && !outValid s

/-! ## The host's actions -/

/-- `out_pop`: the consumer takes the head of `OUTQ`, only while `out_valid = 1` (R238). Never part of an engine step. -/
def popOutput (s : State) : Option (Byte × State) :=
  match s.outq with
  | [] => none
  | c :: rest => some (c, { s with outq := rest })

/-- The host presents the program image: at boot only, and once (R250, R292, R297; log entry 9). -/
def presentImage (image : BootImage) (s : State) : Option State :=
  if s.runState = .idle ∧ s.image = .absent ∧ s.loadError = false then some { s with image := image } else none

/-! ## The block and its host together -/

/-- The moves: one step of the block, or one action of the host. They interleave in any order (R238, R306; log entry 17). -/
inductive Move where
  /-- The block steps. -/
  | block
  /-- The consumer pops. -/
  | pop
  /-- The host presents an image. -/
  | present (image : BootImage)
  deriving DecidableEq, Repr

/-- The block, and what its consumer has received so far, oldest first. -/
structure World where
  /-- The block. -/
  core : State
  /-- The bytes already popped. -/
  sink : List Byte
  deriving DecidableEq, Repr

/-- One move. A move that is not enabled changes nothing. -/
def World.move (m : Move) (w : World) : World :=
  match m with
  | .block =>
    match step w.core with
    | .next s => { w with core := s }
    | .fault _ => w
    | .refused _ => w
  | .pop =>
    match popOutput w.core with
    | some (c, s) => { core := s, sink := w.sink ++ [c] }
    | none => w
  | .present image =>
    match presentImage image w.core with
    | some s => { w with core := s }
    | none => w

/-- A finite run: the moves in order. -/
def World.run (ms : List Move) (w : World) : World :=
  match ms with
  | [] => w
  | m :: rest => World.run rest (w.move m)

end Sys2Proof.Machine
end

