-- ==== Sys2Proof/WellFormed.lean ====
section
/-! DEFINITION. Which terms of `Instr` some word decodes to. The operand widths are in the types, so one check is left:
`unknown` carries an opcode that R111 does not list (R112). -/

namespace Sys2Proof

/-- The check, one arm per constructor. -/
def Instr.wellFormed : Instr → Bool
  | .mov _ _ => true
  | .str _ _ => true
  | .adi _ _ => true
  | .sui _ _ => true
  | .jmp _ => true
  | .jz _ => true
  | .cmp _ _ => true
  | .prn _ => true
  | .mul _ _ => true
  | .div _ _ => true
  | .mop _ _ => true
  | .eof => true
  | .unknown opc => !knownOpcode opc

/-- The instructions that words stand for: "The remaining 244 opcode values … decode to `Unknown(opcode)`" (R112). -/
abbrev WellFormed (i : Instr) : Prop := i.wellFormed = true

end Sys2Proof
end

