-- ==== Sys2Proof/Safety.lean ====
section
/-! DEFINITION. The terms that statements about the machine are made in: the invariant of every run, and the tables of R78 and
R261 (which words an instruction addresses, reads and writes, and what it prints). The machine uses none of them. -/

namespace Sys2Proof.Machine

/-! ## The invariant of every run -/

/-- What a fault record says of the state it stands in (R40, R268): the faulting `ip` is `ip`, an AddressFault's index is
outside `[0, N)`, and an ArithmeticFault's word is a `div` whose divisor word is 0. -/
def FaultRecordHolds (s : State) : Prop :=
  match s.fault with
  | .none => True
  | .addressFault fip addr => fip = s.ip ∧ s.memWords ≤ addr.toNat
  | .arithmeticFault fip =>
    fip = s.ip ∧ s.inMemory s.ip = true ∧
      ∃ dst src : Byte, decode (s.memRead s.ip) = .div dst src ∧ s.operand src = 0

/-- The invariant. It holds at reset and every step and every host action keeps it. -/
structure State.Inv (s : State) : Prop where
  /-- `1 <= N <= 2^32 - 1` (R8). -/
  capacity : Config.capacityOk s.memWords = true
  /-- The memory is in canonical form (log entry 3). -/
  memCanonical : s.mem.wf
  /-- Nothing is stored outside `[0, N)` (R42). -/
  memBelow : Memory.below s.mem s.memWords
  /-- `ip` is in `[0, N]`, or is a jump target above it, which only `N < 255` allows (R33, R213; log entry 7). -/
  ipRange : s.ip.toNat ≤ max s.memWords 255
  /-- "`RUNSTATE = Halted` if and only if `HALT = 1`" (R36). -/
  haltedIff : s.runState = .halted ↔ s.halt = true
  /-- The halt event is presented at the moment `RUNSTATE` becomes Halted (R244). -/
  sentIff : s.haltSent = s.halt
  /-- "exactly once" (R45, R244). -/
  oneEvent : s.haltEvents = if s.haltSent then 1 else 0
  /-- A fatal fault ends the run (R268, R272). -/
  faultHalts : s.fault ≠ .none → s.runState = .halted
  /-- The fault record is true of the state. -/
  faultHolds : FaultRecordHolds s
  /-- Before the engine starts, the registers and the FIFO hold their reset values (R293, R294). -/
  idleClean : s.runState = .idle → s.ip = 0 ∧ s.zero = false ∧ s.ovf = false ∧ s.outq = []
  /-- A failed load leaves `RUNSTATE = Idle` (R294). -/
  loadErrorIdle : s.loadError = true → s.runState = .idle

/-! ## What an instruction addresses, reads, writes and prints -/

/-- The indices an instruction references, in the order it checks them (R261, R266). -/
def addressesOf (i : Instr) (s : State) : List Word :=
  match i with
  | .mov dst src => [directAddr dst, directAddr src]
  | .str dst _ => [directAddr dst]
  | .adi dst _ => [directAddr dst]
  | .sui dst _ => [directAddr dst]
  | .jmp _ => []
  | .jz _ => []
  | .cmp a b => [directAddr a, directAddr b]
  | .prn addr => [directAddr addr]
  | .mul dst src => [directAddr dst, directAddr src]
  | .div dst src => [directAddr dst, directAddr src]
  | .mop dst src => [directAddr dst, directAddr src, s.operand src]
  | .eof => []
  | .unknown _ => []

/-- The first of them that is outside `[0, N)`. -/
def firstBadAddress (i : Instr) (s : State) : Option Word := (addressesOf i s).find? fun a => !s.inMemory a

/-- Does the instruction divide by a zero word (R198)? -/
def dividesByZero (i : Instr) (s : State) : Bool :=
  match i with
  | .mov _ _ => false
  | .str _ _ => false
  | .adi _ _ => false
  | .sui _ _ => false
  | .jmp _ => false
  | .jz _ => false
  | .cmp _ _ => false
  | .prn _ => false
  | .mul _ _ => false
  | .div _ src => s.operand src == 0
  | .mop _ _ => false
  | .eof => false
  | .unknown _ => false

/-- The indices of the words an instruction reads besides its own (the table of R78). -/
def readsOf (i : Instr) (s : State) : List Word :=
  match i with
  | .mov _ src => [directAddr src]
  | .str _ _ => []
  | .adi dst _ => [directAddr dst]
  | .sui dst _ => [directAddr dst]
  | .jmp _ => []
  | .jz _ => []
  | .cmp a b => [directAddr a, directAddr b]
  | .prn addr => [directAddr addr]
  | .mul dst src => [directAddr dst, directAddr src]
  | .div dst src => [directAddr dst, directAddr src]
  | .mop _ src => [directAddr src, s.operand src]
  | .eof => []
  | .unknown _ => []

/-- The index of the word an instruction may write (the table of R78). -/
def writesOf (i : Instr) : Option Word :=
  match i with
  | .mov dst _ => some (directAddr dst)
  | .str dst _ => some (directAddr dst)
  | .adi dst _ => some (directAddr dst)
  | .sui dst _ => some (directAddr dst)
  | .jmp _ => none
  | .jz _ => none
  | .cmp _ _ => none
  | .prn _ => none
  | .mul dst _ => some (directAddr dst)
  | .div dst _ => some (directAddr dst)
  | .mop dst _ => some (directAddr dst)
  | .eof => none
  | .unknown _ => none

/-- Every byte of memory outside the word at index `a` reads in `m'` as it reads in `m`. -/
def SameOutsideWord (m m' : Memory) (a : Word) : Prop :=
  ∀ b : Nat, b < 4 * a.toNat ∨ 4 * a.toNat + 4 ≤ b → m'.readByte b = m.readByte b

/-- The instruction that the next step runs, when the next step runs one (R140, R141). -/
def runningInstr (s : State) : Option Instr :=
  if Config.capacityOk s.memWords = true ∧ s.runState = .running then (fetch s).map decode else none

/-- The bytes an instruction appends to `OUTQ`, said without `OUTQ`: the low byte of the addressed word for a `prn` whose
address is inside the Memory Unit, and none otherwise (R230, R236). -/
def printedBy (i : Instr) (s : State) : List Byte :=
  match i with
  | .mov _ _ => []
  | .str _ _ => []
  | .adi _ _ => []
  | .sui _ _ => []
  | .jmp _ => []
  | .jz _ => []
  | .cmp _ _ => []
  | .prn addr => if addr.toNat < s.memWords then [(s.mem.readWord addr.toNat).extractLsb' 0 8] else []
  | .mul _ _ => []
  | .div _ _ => []
  | .mop _ _ => []
  | .eof => []
  | .unknown _ => []

/-- The bytes the next step appends to `OUTQ`. -/
def printedByStep (s : State) : List Byte :=
  match runningInstr s with
  | some i => printedBy i s
  | none => []

/-- The bytes that `prn` instructions append along a run of moves, in order (R240). -/
def printedAlong (ms : List Move) (w : World) : List Byte :=
  match ms with
  | [] => []
  | .block :: rest => printedByStep w.core ++ printedAlong rest (w.move .block)
  | .pop :: rest => printedAlong rest (w.move .pop)
  | .present image :: rest => printedAlong rest (w.move (.present image))

end Sys2Proof.Machine
end

