-- ==== Sys2Proof/Certificates/Slice0/Obligations.lean ====
section
/-! DEFINITION. The statements for the provers. Each docstring names the rule of spec/ it formalises. `dst`, `src`, `a`, `b`,
`addr` and `target` are address fields, each the index of its own number; `directAddr f` is the index as the meaning computes it
from the field `f`, which is the address stored to, and the address a fault records. An instruction's effect is written as one
record update of the state, so every field that is not named in it is unchanged; memory is described through its bytes and words. -/

open Sys2Proof Sys2Proof.Machine

/-! ## Encoding -/

/-- Words written out from the layout of R101 and the formats of R103 to R107 (the vectors DE1 to DE18 of 95_test_vectors.md)
decode to the instructions they stand for. -/
def Obligations.SampleWordsDecode : Prop :=
  decode 0x01050007 = .mov 5 7 ∧ decode 0x01051107 = .mov 5 7 ∧ decode 0x0B970096 = .mop 151 150 ∧
    decode 0x0203ABCD = .str 3 0xABCD ∧ decode 0x03000005 = .adi 0 5 ∧ decode 0x04640001 = .sui 100 1 ∧
    decode 0x05FF0000 = .jmp 255 ∧ decode 0x06070000 = .jz 7 ∧ decode 0x07050607 = .cmp 5 6 ∧
    decode 0x08660000 = .prn 102 ∧ decode 0x09000001 = .mul 0 1 ∧ decode 0x0A000001 = .div 0 1 ∧
    decode 0xFF123456 = .eof ∧ decode 0x00000000 = .unknown 0 ∧ decode 0xFE000000 = .unknown 0xFE

/-- R114: the decoder, on every word (a word is its four bytes), case by case. -/
def Obligations.DecoderReadsEveryWord : Prop :=
  (∀ w : Word, ∃ opc op1 hi lo : Byte, w = opc ++ op1 ++ hi ++ lo) ∧
    ∀ opc op1 hi lo : Byte,
      decode (0x01#8 ++ op1 ++ hi ++ lo) = .mov op1 lo ∧
      decode (0x02#8 ++ op1 ++ hi ++ lo) = .str op1 (hi ++ lo) ∧
      decode (0x03#8 ++ op1 ++ hi ++ lo) = .adi op1 (hi ++ lo) ∧
      decode (0x04#8 ++ op1 ++ hi ++ lo) = .sui op1 (hi ++ lo) ∧
      decode (0x05#8 ++ op1 ++ hi ++ lo) = .jmp op1 ∧
      decode (0x06#8 ++ op1 ++ hi ++ lo) = .jz op1 ∧
      decode (0x07#8 ++ op1 ++ hi ++ lo) = .cmp op1 hi ∧
      decode (0x08#8 ++ op1 ++ hi ++ lo) = .prn op1 ∧
      decode (0x09#8 ++ op1 ++ hi ++ lo) = .mul op1 lo ∧
      decode (0x0A#8 ++ op1 ++ hi ++ lo) = .div op1 lo ∧
      decode (0x0B#8 ++ op1 ++ hi ++ lo) = .mop op1 lo ∧
      decode (0xFF#8 ++ op1 ++ hi ++ lo) = .eof ∧
      (opc = 0 ∨ (0x0C ≤ opc.toNat ∧ opc.toNat ≤ 0xFE) → decode (opc ++ op1 ++ hi ++ lo) = .unknown opc)

/-- R115, first half: every well-formed instruction but `unknown` has an encoding, the decoder gives the instruction back
from it, and the encoding is canonical; `unknown` has none. -/
def Obligations.DecodeOfEncodeGivesTheInstructionBack : Prop :=
  ∀ i : Instr, WellFormed i →
    ((∃ opc : Byte, i = .unknown opc) ∧ encode i = none) ∨
      ∃ w : Word, encode i = some w ∧ decode w = i ∧ canonical w = true

/-- R115, second half: encoding what a word decodes to gives the word back exactly when the word is canonical and its opcode
is known. -/
def Obligations.EncodeOfDecodeGivesExactlyCanonicalWordsBack : Prop :=
  ∀ w : Word, encode (decode w) = some w ↔ canonical w = true ∧ knownOpcode (opcodeField w) = true

/-- R112 and R114: a word decodes to a well-formed instruction, and every well-formed instruction is what some word decodes
to. -/
def Obligations.DecodedInstructionsAreTheWellFormedOnes : Prop :=
  ∀ i : Instr, WellFormed i ↔ ∃ w : Word, decode w = i

/-- R108: clearing the ignored fields changes neither what a word decodes to nor its canonical form, and two words that
differ in ignored fields only decode alike. -/
def Obligations.IgnoredFieldsNeverAffectDecode : Prop :=
  (∀ w : Word, decode (canonicalise w) = decode w ∧ canonical (canonicalise w) = true) ∧
    ∀ v w : Word, canonicalise v = canonicalise w → decode v = decode w

/-- R109 and R110: an address field and a jump target are unsigned indices, an immediate is zero-extended. -/
def Obligations.AddressFieldsAndImmediatesAreUnsigned : Prop :=
  (∀ f : Byte, (directAddr f).toNat = f.toNat ∧ (jumpTarget f).toNat = f.toNat) ∧
    ∀ imm : Imm16, (immediate imm).toNat = imm.toNat

/-! ## Memory -/

/-- The model's choice (log entry 3): memory is kept in one canonical form, so memories that read alike are equal. -/
def Obligations.CanonicalMemoriesThatReadAlikeAreEqual : Prop :=
  ∀ m m' : Memory, m.wf → m'.wf → (∀ a : Nat, m.readByte a = m'.readByte a) → m = m'

/-- R82: the word an instruction stores is what a later fetch at that index gives, whatever was there. -/
def Obligations.FetchSeesTheWordStoredLast : Prop :=
  ∀ (s : State) (a v : Word), a.toNat < s.memWords →
    fetch ((s.memWrite a v).setIp a) = some v ∧
      ∀ a' : Word, a' ≠ a → fetch ((s.memWrite a v).setIp a') = fetch (s.setIp a')

/-! ## Data movement -/

/-- R160: `mov`. -/
def Obligations.MovCopiesTheSourceWord : Prop :=
  ∀ (dst src : Byte) (s : State),
    (∀ ign : Byte, decode (0x01#8 ++ dst ++ ign ++ src) = .mov dst src) ∧
    (s.halt = false → dst.toNat < s.memWords → src.toNat < s.memWords →
      ∃ m : Memory, exec (.mov dst src) s = .next { s with mem := m, ip := s.ip + 1 } ∧
        m.readWord dst.toNat = s.mem.readWord src.toNat ∧
        SameOutsideWord s.mem m (directAddr dst)) ∧
    (s.memWords ≤ dst.toNat →
      exec (.mov dst src) s = .next (faultEntry (.addressFault s.ip (directAddr dst)) s)) ∧
    (dst.toNat < s.memWords → s.memWords ≤ src.toNat →
      exec (.mov dst src) s = .next (faultEntry (.addressFault s.ip (directAddr src)) s))

/-- R163: `mop`; the pointer is the whole source word. -/
def Obligations.MopCopiesTheWordThePointerNames : Prop :=
  ∀ (dst src : Byte) (s : State),
    (∀ ign : Byte, decode (0x0B#8 ++ dst ++ ign ++ src) = .mop dst src) ∧
    (s.halt = false → dst.toNat < s.memWords → src.toNat < s.memWords →
      (s.mem.readWord src.toNat).toNat < s.memWords →
      ∃ m : Memory, exec (.mop dst src) s = .next { s with mem := m, ip := s.ip + 1 } ∧
        m.readWord dst.toNat = s.mem.readWord (s.mem.readWord src.toNat).toNat ∧
        SameOutsideWord s.mem m (directAddr dst)) ∧
    (s.memWords ≤ dst.toNat →
      exec (.mop dst src) s = .next (faultEntry (.addressFault s.ip (directAddr dst)) s)) ∧
    (dst.toNat < s.memWords → s.memWords ≤ src.toNat →
      exec (.mop dst src) s = .next (faultEntry (.addressFault s.ip (directAddr src)) s)) ∧
    (dst.toNat < s.memWords → src.toNat < s.memWords →
      s.memWords ≤ (s.mem.readWord src.toNat).toNat →
      exec (.mop dst src) s =
        .next (faultEntry (.addressFault s.ip (s.mem.readWord src.toNat)) s))

/-- R166: `str`. -/
def Obligations.StrStoresTheImmediate : Prop :=
  ∀ (dst : Byte) (imm : Imm16) (s : State),
    decode (0x02#8 ++ dst ++ imm) = .str dst imm ∧
    (s.halt = false → dst.toNat < s.memWords →
      ∃ m : Memory, exec (.str dst imm) s = .next { s with mem := m, ip := s.ip + 1 } ∧
        (m.readWord dst.toNat).toNat = imm.toNat ∧ SameOutsideWord s.mem m (directAddr dst)) ∧
    (s.memWords ≤ dst.toNat →
      exec (.str dst imm) s = .next (faultEntry (.addressFault s.ip (directAddr dst)) s))

/-! ## Arithmetic -/

/-- R180: `adi`. -/
def Obligations.AdiAddsOrSetsOverflow : Prop :=
  ∀ (dst : Byte) (imm : Imm16) (s : State),
    decode (0x03#8 ++ dst ++ imm) = .adi dst imm ∧
    (s.halt = false → dst.toNat < s.memWords →
      (s.mem.readWord dst.toNat).toNat + imm.toNat < 2 ^ 32 →
      ∃ m : Memory, exec (.adi dst imm) s = .next { s with mem := m, ip := s.ip + 1, ovf := false } ∧
        (m.readWord dst.toNat).toNat = (s.mem.readWord dst.toNat).toNat + imm.toNat ∧
        SameOutsideWord s.mem m (directAddr dst)) ∧
    (s.halt = false → dst.toNat < s.memWords →
      2 ^ 32 ≤ (s.mem.readWord dst.toNat).toNat + imm.toNat →
      exec (.adi dst imm) s = .next { s with ip := s.ip + 1, ovf := true }) ∧
    (s.memWords ≤ dst.toNat →
      exec (.adi dst imm) s = .next (faultEntry (.addressFault s.ip (directAddr dst)) s))

/-- R186: `sui`. -/
def Obligations.SuiSubtractsOrSetsOverflow : Prop :=
  ∀ (dst : Byte) (imm : Imm16) (s : State),
    decode (0x04#8 ++ dst ++ imm) = .sui dst imm ∧
    (s.halt = false → dst.toNat < s.memWords →
      imm.toNat ≤ (s.mem.readWord dst.toNat).toNat →
      ∃ m : Memory,
        exec (.sui dst imm) s = .next { s with
          mem := m, ip := s.ip + 1, ovf := false,
          zero := if (s.mem.readWord dst.toNat).toNat = imm.toNat then true else s.zero } ∧
        (m.readWord dst.toNat).toNat = (s.mem.readWord dst.toNat).toNat - imm.toNat ∧
        SameOutsideWord s.mem m (directAddr dst)) ∧
    (s.halt = false → dst.toNat < s.memWords →
      (s.mem.readWord dst.toNat).toNat < imm.toNat →
      exec (.sui dst imm) s = .next { s with ip := s.ip + 1, ovf := true }) ∧
    (s.memWords ≤ dst.toNat →
      exec (.sui dst imm) s = .next (faultEntry (.addressFault s.ip (directAddr dst)) s))

/-- R192: `mul`. -/
def Obligations.MulMultipliesOrSetsOverflow : Prop :=
  ∀ (dst src : Byte) (s : State),
    (∀ ign : Byte, decode (0x09#8 ++ dst ++ ign ++ src) = .mul dst src) ∧
    (s.halt = false → dst.toNat < s.memWords → src.toNat < s.memWords →
      (s.mem.readWord dst.toNat).toNat * (s.mem.readWord src.toNat).toNat < 2 ^ 32 →
      ∃ m : Memory, exec (.mul dst src) s = .next { s with mem := m, ip := s.ip + 1, ovf := false } ∧
        (m.readWord dst.toNat).toNat =
          (s.mem.readWord dst.toNat).toNat * (s.mem.readWord src.toNat).toNat ∧
        SameOutsideWord s.mem m (directAddr dst)) ∧
    (s.halt = false → dst.toNat < s.memWords → src.toNat < s.memWords →
      2 ^ 32 ≤ (s.mem.readWord dst.toNat).toNat * (s.mem.readWord src.toNat).toNat →
      exec (.mul dst src) s = .next { s with ip := s.ip + 1, ovf := true }) ∧
    (s.memWords ≤ dst.toNat →
      exec (.mul dst src) s = .next (faultEntry (.addressFault s.ip (directAddr dst)) s)) ∧
    (dst.toNat < s.memWords → s.memWords ≤ src.toNat →
      exec (.mul dst src) s = .next (faultEntry (.addressFault s.ip (directAddr src)) s))

/-- R198: `div`. -/
def Obligations.DivDividesOrFaultsOnZero : Prop :=
  ∀ (dst src : Byte) (s : State),
    (∀ ign : Byte, decode (0x0A#8 ++ dst ++ ign ++ src) = .div dst src) ∧
    (s.halt = false → dst.toNat < s.memWords → src.toNat < s.memWords →
      s.mem.readWord src.toNat ≠ 0 →
      ∃ m : Memory, exec (.div dst src) s = .next { s with mem := m, ip := s.ip + 1 } ∧
        (m.readWord dst.toNat).toNat =
          (s.mem.readWord dst.toNat).toNat / (s.mem.readWord src.toNat).toNat ∧
        SameOutsideWord s.mem m (directAddr dst)) ∧
    (dst.toNat < s.memWords → src.toNat < s.memWords →
      s.mem.readWord src.toNat = 0 →
      exec (.div dst src) s = .next (faultEntry (.arithmeticFault s.ip) s)) ∧
    (s.memWords ≤ dst.toNat →
      exec (.div dst src) s = .next (faultEntry (.addressFault s.ip (directAddr dst)) s)) ∧
    (dst.toNat < s.memWords → s.memWords ≤ src.toNat →
      exec (.div dst src) s = .next (faultEntry (.addressFault s.ip (directAddr src)) s))

/-! ## Compare and control transfer -/

/-- R210: `cmp`. -/
def Obligations.CmpAssignsZero : Prop :=
  ∀ (a b : Byte) (s : State),
    (∀ ign : Byte, decode (0x07#8 ++ a ++ b ++ ign) = .cmp a b) ∧
    (s.halt = false → a.toNat < s.memWords → b.toNat < s.memWords →
      exec (.cmp a b) s = .next { s with
        ip := s.ip + 1,
        zero := decide (s.mem.readWord a.toNat = s.mem.readWord b.toNat) }) ∧
    (s.memWords ≤ a.toNat →
      exec (.cmp a b) s = .next (faultEntry (.addressFault s.ip (directAddr a)) s)) ∧
    (a.toNat < s.memWords → s.memWords ≤ b.toNat →
      exec (.cmp a b) s = .next (faultEntry (.addressFault s.ip (directAddr b)) s))

/-- R213: `jmp`; a target outside the Memory Unit faults at the next fetch, with the target as both `ip` and index. -/
def Obligations.JmpSetsIpAndTheNextFetchChecksIt : Prop :=
  ∀ (target : Byte) (s : State),
    (∀ hi lo : Byte, decode (0x05#8 ++ target ++ hi ++ lo) = .jmp target) ∧
    (s.halt = false → exec (.jmp target) s = .next { s with ip := target.setWidth 32 }) ∧
    (Config.capacityOk s.memWords = true → s.runState = .running → s.memWords ≤ target.toNat →
      step { s with ip := target.setWidth 32 } =
        .next (faultEntry (.addressFault (target.setWidth 32) (target.setWidth 32)) { s with ip := target.setWidth 32 }))

/-- R216: `jz`; taken and not taken. -/
def Obligations.JzJumpsExactlyWhenZeroIsSet : Prop :=
  ∀ (target : Byte) (s : State),
    (∀ hi lo : Byte, decode (0x06#8 ++ target ++ hi ++ lo) = .jz target) ∧
    (s.halt = false → s.zero = true → exec (.jz target) s = .next { s with ip := target.setWidth 32 }) ∧
    (s.halt = false → s.zero = false → exec (.jz target) s = .next { s with ip := s.ip + 1 }) ∧
    (Config.capacityOk s.memWords = true → s.runState = .running → s.memWords ≤ target.toNat →
      step { s with ip := target.setWidth 32 } =
        .next (faultEntry (.addressFault (target.setWidth 32) (target.setWidth 32)) { s with ip := target.setWidth 32 }))

/-! ## Output, halt and the unknown opcode -/

/-- R230: `prn`. -/
def Obligations.PrnAppendsTheLowByte : Prop :=
  ∀ (addr : Byte) (s : State),
    (∀ hi lo : Byte, decode (0x08#8 ++ addr ++ hi ++ lo) = .prn addr) ∧
    (s.halt = false → addr.toNat < s.memWords →
      exec (.prn addr) s = .next { s with
        ip := s.ip + 1,
        outq := s.outq ++ [(s.mem.readWord addr.toNat).extractLsb' 0 8] }) ∧
    (s.memWords ≤ addr.toNat →
      exec (.prn addr) s = .next (faultEntry (.addressFault s.ip (directAddr addr)) s))

/-- R232 and R244: `eof` sets `HALT`, enters Halted and sets `HALT_SENT`; `ip` keeps the index of the `eof` word, and one halt
event is presented. The counter `haltEvents`, which says so, is the model's choice (log entry 11). -/
def Obligations.EofHaltsAndKeepsIp : Prop :=
  (∀ op1 hi lo : Byte, decode (0xFF#8 ++ op1 ++ hi ++ lo) = .eof) ∧
    ∀ s : State, s.haltSent = false →
      exec .eof s = .next { s with
        halt := true, runState := .halted, haltSent := true, haltEvents := s.haltEvents + 1 }

/-- R112 and R146: the unknown opcodes are `0x00` and `0x0C` to `0xFE`; they only advance `ip`, and so does the zero word. -/
def Obligations.UnknownOpcodesOnlyAdvanceIp : Prop :=
  (∀ opc : Byte, knownOpcode opc = false ↔ opc.toNat = 0 ∨ (0x0C ≤ opc.toNat ∧ opc.toNat ≤ 0xFE)) ∧
    (∀ w : Word, knownOpcode (opcodeField w) = false → decode w = .unknown (opcodeField w)) ∧
    (∀ (opc : Byte) (s : State), s.halt = false → exec (.unknown opc) s = .next { s with ip := s.ip + 1 }) ∧
    ∀ s : State, s.halt = false → exec (decode 0) s = .next { s with ip := s.ip + 1 }

/-! ## The engine's step -/

/-- R142 and R145: a Running engine runs the instruction that the word at `ip` decodes to, and a step is exactly that
instruction: `exec` itself ends with the halt check or `ip <- next_ip`. -/
def Obligations.StepRunsTheDecodedInstruction : Prop :=
  ∀ (s : State) (i : Instr), Config.capacityOk s.memWords = true → s.runState = .running →
    s.ip.toNat < s.memWords → decode (s.mem.readWord s.ip.toNat) = i → step s = exec i s

/-- R141: the fetch. -/
def Obligations.FetchOutsideMemoryFaults : Prop :=
  ∀ s : State, Config.capacityOk s.memWords = true → s.runState = .running →
    (s.memWords ≤ s.ip.toNat → step s = .next (faultEntry (.addressFault s.ip s.ip) s)) ∧
      (s.ip.toNat < s.memWords → fetch s = some (s.mem.readWord s.ip.toNat))

/-- R83: an instruction that overwrites its own word completes as it was fetched, here `str`; the new word is what a later
fetch at that index gives. -/
def Obligations.StrOverItsOwnWordCompletesAsFetched : Prop :=
  ∀ (dst : Byte) (imm : Imm16) (s : State), Config.capacityOk s.memWords = true → s.runState = .running →
    s.halt = false → s.ip.toNat = dst.toNat → dst.toNat < s.memWords →
    decode (s.mem.readWord s.ip.toNat) = .str dst imm →
    ∃ m : Memory, step s = .next { s with mem := m, ip := s.ip + 1 } ∧
      fetch { s with mem := m } = some (imm.setWidth 32) ∧ SameOutsideWord s.mem m (directAddr dst)

/-- Nothing is refused: a step of a machine the spec covers answers a next state (R113: no encoding is illegal), and the one refusal
is a capacity outside R8 (log entry 1). That a fatal fault is a next state is read from R268 (log entry 18). R148 says that a
Halted engine takes no further steps: that `step` then answers the same state, and so does an Idle core with no image presented
or after a failed load, is the model's choice (log entry 4). -/
def Obligations.EveryStepAnswersUnlessTheCapacityIsOutOfRange : Prop :=
  (∀ (i : Instr) (s : State), ∃ t : State, exec i s = .next t) ∧
    ∀ s : State,
      (1 ≤ s.memWords ∧ s.memWords < 2 ^ 32 → ∃ t : State, step s = .next t) ∧
        (s.memWords = 0 ∨ 2 ^ 32 ≤ s.memWords → step s = .refused .capacityOutOfRange)

/-- R148: from Halted, no step changes anything (that `step` then answers the same state is the model's choice, log entry 4); of
the host's moves, presenting an image is not enabled, and a pop changes `OUTQ` alone. -/
def Obligations.HaltedKeepsEverythingButTheQueue : Prop :=
  ∀ s : State, Config.capacityOk s.memWords = true → s.runState = .halted →
    step s = .next s ∧ (∀ image : BootImage, presentImage image s = none) ∧
      ∀ (c : Byte) (t : State), popOutput s = some (c, t) → t = { s with outq := t.outq }

/-- R36: the transitions of `RUNSTATE`. That a step from Halted answers at all is the model's choice (log entry 4). -/
def Obligations.RunStateOnlyMovesForward : Prop :=
  ∀ s t : State, step s = .next t →
    (s.runState = .idle → t.runState = .idle ∨ t.runState = .running) ∧
      (s.runState = .running → t.runState = .running ∨ t.runState = .halted) ∧
      (s.runState = .halted → t.runState = .halted)

/-! ## Flags -/

/-- R38: every instruction's effect on `ZERO`, and that no instruction but `jz` reads it. -/
def Obligations.ZeroIsWrittenByCmpAndSuiAndReadByJzOnly : Prop :=
  State.reset.zero = false ∧
    (∀ (i : Instr) (s t : State), exec i s = .next t →
      t.zero = match firstBadAddress i s, i with
        | none, .cmp a b => decide (s.operand a = s.operand b)
        | none, .sui dst imm => if (s.operand dst).toNat = imm.toNat then true else s.zero
        | _, _ => s.zero) ∧
    (∀ (s t : State), step s = .next t → s.runState ≠ .running → t.zero = s.zero) ∧
    ∀ (i : Instr) (s t : State) (b : Bool), (∀ target : Byte, i ≠ .jz target) → exec i s = .next t →
      ∃ t' : State, exec i { s with zero := b } = .next t' ∧ { t' with zero := t.zero } = t

/-- R39: every instruction's effect on `OVF`, and that no instruction reads it. -/
def Obligations.OvfIsWrittenByCheckedOperationsAndReadByNone : Prop :=
  State.reset.ovf = false ∧
    (∀ (i : Instr) (s t : State), exec i s = .next t →
      t.ovf = match firstBadAddress i s, i with
        | none, .adi dst imm => decide (2 ^ 32 ≤ (s.operand dst).toNat + imm.toNat)
        | none, .sui dst imm => decide ((s.operand dst).toNat < imm.toNat)
        | none, .mul dst src => decide (2 ^ 32 ≤ (s.operand dst).toNat * (s.operand src).toNat)
        | _, _ => s.ovf) ∧
    ∀ (i : Instr) (s t : State) (b : Bool), exec i s = .next t →
      ∃ t' : State, exec i { s with ovf := b } = .next t' ∧ { t' with ovf := t.ovf } = t

/-- R37: nothing clears `HALT`, and it is set by `eof` and by a fatal fault only. -/
def Obligations.HaltIsNeverCleared : Prop :=
  ∀ s t : State, step s = .next t →
    (s.halt = true → t.halt = true) ∧
      (s.halt = false → t.halt = true → runningInstr s = some .eof ∨ t.fault ≠ .none)

/-! ## Faults -/

/-- R268: fatal-fault entry, field by field (`haltEvents` counts the halt events presented: log entry 11). -/
def Obligations.FaultEntryHaltsAndKeepsTheRest : Prop :=
  ∀ (r : FaultRecord) (s : State), s.haltSent = false →
    faultEntry r s = { s with
      fault := r, halt := true, runState := .halted, haltSent := true, haltEvents := s.haltEvents + 1 }

/-- R261, R264 and R266: a step of a Running engine takes the first fault of the order: the fetch check, the instruction's
addresses in the order it checks them, the zero divisor; and with none of them it takes no fault. -/
def Obligations.TheFirstFaultInOrderIsTaken : Prop :=
  ∀ s : State, Config.capacityOk s.memWords = true → s.runState = .running →
    match runningInstr s with
    | none => step s = .next (faultEntry (.addressFault s.ip s.ip) s)
    | some i =>
      match firstBadAddress i s with
      | some a => step s = .next (faultEntry (.addressFault s.ip a) s)
      | none =>
        if dividesByZero i s = true then step s = .next (faultEntry (.arithmeticFault s.ip) s)
        else ∃ t : State, step s = .next t ∧ t.fault = s.fault

/-- R270: a fatal fault leaves no effect of its instruction: `ip`, memory, the other flags and `OUTQ` stay.
The counter of halt events is the model's (log entry 11). -/
def Obligations.FaultsArePrecise : Prop :=
  ∀ s t : State, step s = .next t → t.fault ≠ s.fault →
    t.halt = true ∧ t.runState = .halted ∧
      t = { s with
        fault := t.fault, halt := t.halt, runState := t.runState, haltSent := t.haltSent, haltEvents := t.haltEvents }

/-- R40: `FAULT` is written at most once per run, by the step that halts the engine. -/
def Obligations.FaultRecordIsWrittenOnce : Prop :=
  ∀ s t : State, s.Inv → step s = .next t → t.fault ≠ s.fault →
    s.fault = .none ∧ s.runState = .running ∧ t.runState = .halted

/-! ## What an instruction reads and writes -/

/-- R72 and R78: every instruction leaves every byte outside the one word it may write, and what it does depends on no word
but those it reads: with another memory that agrees on them, the same happens to everything else, and the written word takes
the same value. -/
def Obligations.InstructionsReadAndWriteOnlyTheirOperands : Prop :=
  ∀ (i : Instr) (s t : State), exec i s = .next t →
    (∀ b : Nat, (∀ a : Word, writesOf i = some a → b < 4 * a.toNat ∨ 4 * a.toNat + 4 ≤ b) →
      t.mem.readByte b = s.mem.readByte b) ∧
    ∀ m : Memory, (∀ a : Word, a ∈ readsOf i s → m.readWord a.toNat = s.mem.readWord a.toNat) →
      ∃ m' : Memory, exec i { s with mem := m } = .next { t with mem := m' } ∧
        ∀ j : Nat, t.mem.readWord j = s.mem.readWord j ∧ m'.readWord j = m.readWord j ∨
          m'.readWord j = t.mem.readWord j

/-- R72: once the engine has started, no sequence of moves changes a word at index 256 or above. -/
def Obligations.WordsFrom256UpNeverChange : Prop :=
  ∀ (ms : List Move) (w : World), w.core.runState ≠ .idle →
    ∀ j : Nat, 256 ≤ j → ((World.run ms w).core.mem.readWord j) = w.core.mem.readWord j

/-! ## The invariant -/

/-- The invariant holds at reset, for every capacity the spec covers (R47, R8; log entry 1). The memory form it asks for and the
counter and output it reads beside R47's values are the model's (log entries 3, 10 and 11). -/
def Obligations.ResetSatisfiesInv : Prop :=
  State.reset.Inv ∧ ∀ n : Nat, Config.capacityOk n = true → (State.resetWith n).Inv

/-- Every step keeps the invariant (R33, R36, R40, R42, R244, R268). Its memory form, its bound on `ip` and its event counter are
the model's (log entries 3, 7 and 11). -/
def Obligations.StepKeepsInv : Prop :=
  ∀ s t : State, s.Inv → step s = .next t → t.Inv

/-- Every move of the block and of its host keeps it, so it holds along every run (R252). -/
def Obligations.EveryRunKeepsInv : Prop :=
  ∀ (ms : List Move) (w : World), w.core.Inv → (World.run ms w).core.Inv

/-- R47: the state after reset, at every capacity. The last clause is not R47's: that State.reset has the capacity 500 is R8's
default, held in a field of the state as log entry 1 says. -/
def Obligations.ResetValuesAreThoseOfTheTable : Prop :=
  ∀ n : Nat,
    (∀ i : Nat, (State.resetWith n).mem.readWord i = 0) ∧ (State.resetWith n).ip = 0 ∧
      (State.resetWith n).halt = false ∧ (State.resetWith n).zero = false ∧ (State.resetWith n).ovf = false ∧
      (State.resetWith n).fault = .none ∧ (State.resetWith n).runState = .idle ∧ (State.resetWith n).outq = [] ∧
      (State.resetWith n).haltSent = false ∧ State.reset = State.resetWith 500

/-- R33 for the capacities that the jump targets fit in: `ip` stays in `[0, N]`. -/
def Obligations.IpStaysWithinTheCapacityFrom255Up : Prop :=
  ∀ s t : State, 255 ≤ s.memWords → s.ip.toNat ≤ s.memWords → step s = .next t → t.ip.toNat ≤ t.memWords

/-- R33 as it is written, for every capacity. It fails: R213 lets `jmp` set `ip` to a target above `N` when `N < 255`
(vector JM4), which the model follows (log entry 7). -/
def Obligations.IpStaysWithinEveryCapacity : Prop :=
  ∀ s t : State, s.Inv → s.ip.toNat ≤ s.memWords → step s = .next t → t.ip.toNat ≤ t.memWords

/-! ## Output and the halt event -/

/-- R240: along every run, what the consumer has received followed by `OUTQ` is what it was before followed by what the `prn`
instructions appended, in order. -/
def Obligations.OutputIsNeitherLostNorReordered : Prop :=
  ∀ (ms : List Move) (w : World),
    (World.run ms w).sink ++ (World.run ms w).core.outq = w.sink ++ w.core.outq ++ printedAlong ms w

/-- R238: the output port. -/
def Obligations.PopTakesTheHeadExactlyWhenValid : Prop :=
  ∀ s : State,
    (outValid s = true ↔ s.outq ≠ []) ∧
      (outValid s = true →
        ∃ (c : Byte) (rest : List Byte), s.outq = c :: rest ∧ outData s = some c ∧
          popOutput s = some (c, { s with outq := rest })) ∧
      (outValid s = false → popOutput s = none)

/-- R40, R248 and R250: the status outputs. -/
def Obligations.StatusOutputsShowTheRecord : Prop :=
  ∀ s : State,
    (haltedOut s = true ↔ s.runState = .halted) ∧
      (runComplete s = true ↔ s.runState = .halted ∧ s.outq = []) ∧
      (s.fault = .none → faultKind s = 0 ∧ faultAddr s = 0) ∧
      (∀ fip addr : Word, s.fault = .addressFault fip addr →
        faultKind s = 1 ∧ faultIp s = some fip ∧ faultAddr s = addr) ∧
      ∀ fip : Word, s.fault = .arithmeticFault fip → faultKind s = 2 ∧ faultIp s = some fip ∧ faultAddr s = 0

/-- R238, R242 and R79: a step never reads or removes an entry of `OUTQ`, and appends at most one, whatever the queue holds;
so a halt discards nothing. -/
def Obligations.StepsOnlyAppendToTheQueue : Prop :=
  ∀ s t : State, step s = .next t →
    ∃ new : List Byte, new.length ≤ 1 ∧ t.outq = s.outq ++ new ∧
      ∀ q : List Byte, step { s with outq := q } = .next { t with outq := q ++ new }

/-- R250, R306: a pop and a step of the block may be taken in either order, with the same result. -/
def Obligations.PopAndStepCommute : Prop :=
  ∀ (s s₁ t : State) (c : Byte), popOutput s = some (c, s₁) → step s = .next t →
    ∃ t₁ : State, step s₁ = .next t₁ ∧ popOutput t = some (c, t₁)

/-- R244: the halt event is presented exactly once, at the step by which `RUNSTATE` becomes Halted (`haltEvents` counts the
events presented, the model's choice: log entry 11). -/
def Obligations.HaltEventMarksTheEntryToHalted : Prop :=
  ∀ s t : State, s.Inv → step s = .next t →
    (t.haltEvents = s.haltEvents ∧ t.runState = s.runState) ∨
      (t.haltEvents = s.haltEvents ∧ s.runState = .idle ∧ t.runState = .running) ∨
      (s.haltEvents = 0 ∧ t.haltEvents = 1 ∧ s.runState = .running ∧ t.runState = .halted)

/-- R250: after the load, no input but the pop changes anything: the `image` input is not read. That the input
is a field of the state is the model's choice (log entry 9). -/
def Obligations.ImageInputIsNotReadAfterTheLoad : Prop :=
  ∀ (s t : State) (image : BootImage), s.runState ≠ .idle → step s = .next t →
    step { s with image := image } = .next { t with image := image }

/-! ## The load -/

/-- R73, R292 and R293: a successful load, from reset with an image presented: the words stand big-endian from index 0, the
rest is zero, the engine is Running, and nothing else has changed. That the load is one step is the model's choice (log
entry 9). -/
def Obligations.LoadPlacesTheImageBigEndian : Prop :=
  ∀ (n : Nat) (image : List Byte), Config.capacityOk n = true → image.length % 4 = 0 → image.length / 4 ≤ n →
    ∃ m : Memory,
      step { State.resetWith n with image := .bytes image } =
        .next { State.resetWith n with image := .bytes image, mem := m, runState := .running } ∧
      (∀ (i : Nat) (b0 b1 b2 b3 : Byte),
        image[4 * i]? = some b0 → image[4 * i + 1]? = some b1 → image[4 * i + 2]? = some b2 →
        image[4 * i + 3]? = some b3 → m.readWord i = b0 ++ b1 ++ b2 ++ b3) ∧
      ∀ i : Nat, image.length / 4 ≤ i → m.readWord i = 0

/-- R294: a failed load, and what stays so after it. The memory it leaves is a free value (log entry 6): the statement says
nothing of it. That the load is one step is the model's choice (log entry 9). -/
def Obligations.FailedLoadNeverStarts : Prop :=
  ∀ s : State, Config.capacityOk s.memWords = true → s.runState = .idle → s.loadError = false →
    (s.image = .unreadable ∨ ∃ image : List Byte, s.image = .bytes image ∧
      (image.length % 4 ≠ 0 ∨ s.memWords < image.length / 4)) →
    ∃ t : State,
      step s = .next t ∧ t = { s with mem := t.mem, loadError := true, freeDraws := s.freeDraws + 1 } ∧ step t = .next t

/-- The model's choice (log entries 4 and 5): with no image presented, a step answers the same state, since the engine takes
steps only while Running (R140). This is what happens from State.reset. -/
def Obligations.IdleWaitsForAnImage : Prop :=
  ∀ s : State, Config.capacityOk s.memWords = true → s.runState = .idle → s.image = .absent → step s = .next s

/-- R150 and R296: the empty image loads, the zero words run as no-ops, and the run ends with `AddressFault(N, N)`: one step of
the load (the model's choice, log entry 9), `N` no-ops, and the step that faults. The count of halt events is the model's
choice (log entry 11). -/
def Obligations.EmptyImageRunsOffTheEnd : Prop :=
  ∀ n : Nat, Config.capacityOk n = true →
    World.run (List.replicate (n + 2) .block) { core := { State.resetWith n with image := .bytes [] }, sink := [] } =
      { core := { State.resetWith n with
          image := .bytes [], ip := BitVec.ofNat 32 n, halt := true, runState := .halted,
          fault := .addressFault (BitVec.ofNat 32 n) (BitVec.ofNat 32 n), haltSent := true, haltEvents := 1 },
        sink := [] }
end

