-- ==== Sys2Proof/Laws/Encoding.lean ====
section
/-! SUPPORT. The fields of a word built from four bytes, and a word built from its fields (R101). -/

namespace Sys2Proof

/-- A word is its four fields (R101). -/
theorem wordOfBytes_fields (v : Word) :
    wordOfBytes (opcodeField v) (op1Field v) (op2HiField v) (op2LoField v) = v := by
  apply BitVec.eq_of_getLsbD_eq
  intro k hk
  simp only [wordOfBytes, opcodeField, op1Field, op2HiField, op2LoField, BitVec.getLsbD_append, BitVec.getLsbD_extractLsb']
  split_ifs with h1 h2 h3
  · simp [h1]
  · have e : 8 + (k - 8) = k := by omega
    simp [h2, e]
  · have e : 16 + (k - 8 - 8) = k := by omega
    simp [h3, e]
  · have e : 24 + (k - 8 - 8 - 8) = k := by omega
    have l : k - 8 - 8 - 8 < 8 := by omega
    simp only [e, l, decide_true, Bool.true_and]

@[simp] theorem opcodeField_wordOfBytes (a b c d : Byte) : opcodeField (wordOfBytes a b c d) = a := by
  apply BitVec.eq_of_getLsbD_eq
  intro k hk
  simp only [wordOfBytes, opcodeField, BitVec.getLsbD_append, BitVec.getLsbD_extractLsb']
  have l1 : ¬ 24 + k < 8 := by omega
  have l2 : ¬ 24 + k - 8 < 8 := by omega
  have l3 : ¬ 24 + k - 8 - 8 < 8 := by omega
  have e : 24 + k - 8 - 8 - 8 = k := by omega
  simp only [hk, l1, l2, l3, e, decide_true, Bool.true_and, if_false]

@[simp] theorem op1Field_wordOfBytes (a b c d : Byte) : op1Field (wordOfBytes a b c d) = b := by
  apply BitVec.eq_of_getLsbD_eq
  intro k hk
  simp only [wordOfBytes, op1Field, BitVec.getLsbD_append, BitVec.getLsbD_extractLsb']
  have l1 : ¬ 16 + k < 8 := by omega
  have l2 : ¬ 16 + k - 8 < 8 := by omega
  have e : 16 + k - 8 - 8 = k := by omega
  simp only [hk, l1, l2, e, decide_true, Bool.true_and, if_false, if_true]

@[simp] theorem op2HiField_wordOfBytes (a b c d : Byte) : op2HiField (wordOfBytes a b c d) = c := by
  apply BitVec.eq_of_getLsbD_eq
  intro k hk
  simp only [wordOfBytes, op2HiField, BitVec.getLsbD_append, BitVec.getLsbD_extractLsb']
  have l1 : ¬ 8 + k < 8 := by omega
  have e : 8 + k - 8 = k := by omega
  simp only [hk, l1, e, decide_true, Bool.true_and, if_false, if_true]

@[simp] theorem op2LoField_wordOfBytes (a b c d : Byte) : op2LoField (wordOfBytes a b c d) = d := by
  apply BitVec.eq_of_getLsbD_eq
  intro k hk
  simp only [wordOfBytes, op2LoField, BitVec.getLsbD_append, BitVec.getLsbD_extractLsb', Nat.zero_add]
  simp only [hk, decide_true, Bool.true_and, if_true]

theorem imm16Field_wordOfBytes (a b c d : Byte) : imm16Field (wordOfBytes a b c d) = c ++ d := by
  apply BitVec.eq_of_getLsbD_eq
  intro k hk
  simp only [wordOfBytes, imm16Field, BitVec.getLsbD_append, BitVec.getLsbD_extractLsb', Nat.zero_add]
  simp only [hk, decide_true, Bool.true_and]
  split_ifs with h1 h2
  · rfl
  · rfl
  all_goals exact absurd (by omega) h2

theorem imm16_halves (i : Imm16) : i.extractLsb' 8 8 ++ i.extractLsb' 0 8 = i := by
  apply BitVec.eq_of_getLsbD_eq
  intro k hk
  simp only [BitVec.getLsbD_append, BitVec.getLsbD_extractLsb']
  split_ifs with h
  · simp [h]
  · have e : 8 + (k - 8) = k := by omega
    have l : k - 8 < 8 := by omega
    simp only [e, l, decide_true, Bool.true_and]

/-- The immediate's high byte is `op2_hi` and its low byte `op2_lo` (R101). -/
theorem imm16Field_eq_append (w : Word) : imm16Field w = op2HiField w ++ op2LoField w := by
  conv_lhs => rw [← wordOfBytes_fields w]
  rw [imm16Field_wordOfBytes]

theorem and_wordOfBytes (a b c d a' b' c' d' : Byte) :
    wordOfBytes a b c d &&& wordOfBytes a' b' c' d' = wordOfBytes (a &&& a') (b &&& b') (c &&& c') (d &&& d') := by
  apply BitVec.eq_of_getLsbD_eq
  intro k _
  simp only [wordOfBytes, BitVec.getLsbD_and, BitVec.getLsbD_append]
  split_ifs <;> rfl

/-- Everything clearing the ignored fields does, format by format (R103 to R108). -/
theorem canonicalise_wordOfBytes (o a b c : Byte) :
    canonicalise (wordOfBytes o a b c) =
      match formatOf o with
      | .z => wordOfBytes o 0 0 0
      | .a => wordOfBytes o a 0 0
      | .aa => wordOfBytes o a 0 c
      | .ai => wordOfBytes o a b c
      | .ac => wordOfBytes o a b 0 := by
  have hall : ∀ x : Byte, x &&& 0xFF = x := by decide
  have hnone : ∀ x : Byte, x &&& 0x00 = 0 := by decide
  unfold canonicalise
  rw [opcodeField_wordOfBytes]
  cases formatOf o
  · rw [show usedMask .z = wordOfBytes 0xFF 0 0 0 from rfl, and_wordOfBytes]; simp only [hall, hnone]
  · rw [show usedMask .a = wordOfBytes 0xFF 0xFF 0 0 from rfl, and_wordOfBytes]; simp only [hall, hnone]
  · rw [show usedMask .aa = wordOfBytes 0xFF 0xFF 0 0xFF from rfl, and_wordOfBytes]; simp only [hall, hnone]
  · rw [show usedMask .ai = wordOfBytes 0xFF 0xFF 0xFF 0xFF from rfl, and_wordOfBytes]; simp only [hall]
  · rw [show usedMask .ac = wordOfBytes 0xFF 0xFF 0xFF 0 from rfl, and_wordOfBytes]; simp only [hall, hnone]

/-- Words are equal exactly when their four bytes are. -/
theorem wordOfBytes_inj {a b c d a' b' c' d' : Byte} :
    wordOfBytes a b c d = wordOfBytes a' b' c' d' ↔ a = a' ∧ b = b' ∧ c = c' ∧ d = d' := by
  constructor
  · intro h
    exact ⟨by simpa using congrArg opcodeField h, by simpa using congrArg op1Field h, by simpa using congrArg op2HiField h,
      by simpa using congrArg op2LoField h⟩
  · rintro ⟨rfl, rfl, rfl, rfl⟩; rfl

theorem bytesOfWord_decodeBytes (w : Word) (rest : List Byte) :
    decodeBytes (bytesOfWord w ++ rest) = .ok (decode w, rest) := by
  simp [bytesOfWord, decodeBytes, wordOfBytes_fields]

/-- What `decodeTableWord` answers: the decoder's instruction for the word, always. -/
theorem decodeTableWord_eq (nbits w : Nat) : decodeTableWord nbits w = some (decode (tableWord nbits w)) := by
  have h := bytesOfWord_decodeBytes (tableWord nbits w) []
  rw [List.append_nil] at h
  simp [decodeTableWord, h]

end Sys2Proof
end

