-- ==== Sys2Proof/Laws/Memory.lean ====
section
/-! SUPPORT. The Memory Unit: reading after writing, and the canonical form that every memory operation keeps. -/

namespace Sys2Proof.Machine

variable (m : Memory) (a a' : Nat) (b : Byte)

/-! ## Bytes -/

@[simp] theorem Memory.readByte_nil : Memory.readByte [] a = unlistedByte := rfl

@[simp] theorem Memory.readByte_cons (c : Host.Cell) (rest : Memory) :
    Memory.readByte (c :: rest) a = if c.1 = a then c.2 else Memory.readByte rest a := rfl

theorem Memory.readByte_erase :
    (m.erase a).readByte a' = if a' = a then unlistedByte else m.readByte a' := by
  induction m with
  | nil => simp [Memory.erase]
  | cons c rest ih =>
    unfold Memory.erase at ih ⊢
    by_cases hc : c.1 = a
    · by_cases ha : a' = a <;> simp_all [eq_comm]
    · by_cases ha : c.1 = a'
      · simp_all
      · simp_all

theorem Memory.readByte_insertCell (h : ∀ c ∈ m, c.1 ≠ a) :
    (Memory.insertCell a b m).readByte a' = if a' = a then b else m.readByte a' := by
  induction m with
  | nil => simp [Memory.insertCell, eq_comm]
  | cons c rest ih =>
    have hc : c.1 ≠ a := h c (by simp)
    have ih := ih fun d hd => h d (by simp [hd])
    unfold Memory.insertCell
    by_cases hlt : a < c.1
    · simp only [hlt, if_true, Memory.readByte_cons]
      by_cases ha : a' = a
      · simp [ha]
      · simp [ha, Ne.symm ha]
    · simp only [hlt, if_false, Memory.readByte_cons, ih]
      by_cases ha : a' = a
      · simp [ha, hc]
      · simp [ha]

theorem Memory.ne_of_mem_erase {c : Host.Cell} (h : c ∈ m.erase a) : c.1 ≠ a := by
  simpa using (List.mem_filter.mp h).2

/-- Everything a write does to the bytes. -/
theorem Memory.readByte_writeByte :
    (m.writeByte a b).readByte a' = if a' = a then b else m.readByte a' := by
  unfold Memory.writeByte
  by_cases hb : b = unlistedByte
  · simp [hb, Memory.readByte_erase]
  · rw [if_neg hb, Memory.readByte_insertCell _ _ _ _ fun c hc => Memory.ne_of_mem_erase m a hc, Memory.readByte_erase]
    by_cases ha : a' = a <;> simp [ha]

/-! ## The canonical form -/

theorem Memory.mem_insertCell (c : Host.Cell) :
    c ∈ Memory.insertCell a b m ↔ c = (a, b) ∨ c ∈ m := by
  induction m with
  | nil => simp [Memory.insertCell]
  | cons d rest ih =>
    unfold Memory.insertCell
    by_cases hlt : a < d.1
    · simp [hlt]
    · simp only [hlt, if_false, List.mem_cons, ih]
      tauto

theorem Memory.insertCell_pairwise (h : m.Pairwise fun c d => c.1 < d.1) (hne : ∀ c ∈ m, c.1 ≠ a) :
    (Memory.insertCell a b m).Pairwise fun c d => c.1 < d.1 := by
  induction m with
  | nil => simp [Memory.insertCell]
  | cons d rest ih =>
    obtain ⟨hd, hrest⟩ := List.pairwise_cons.mp h
    unfold Memory.insertCell
    by_cases hlt : a < d.1
    · simp only [hlt, if_true, List.pairwise_cons]
      refine ⟨fun c hc => ?_, hd, hrest⟩
      rcases List.mem_cons.mp hc with rfl | hc
      · exact hlt
      · exact Nat.lt_trans hlt (hd c hc)
    · simp only [hlt, if_false, List.pairwise_cons]
      refine ⟨fun c hc => ?_, ih hrest fun c hc => hne c (by simp [hc])⟩
      rcases (Memory.mem_insertCell _ _ _ _).mp hc with rfl | hc
      · exact Nat.lt_of_le_of_ne (Nat.not_lt.mp hlt) (hne d (by simp))
      · exact hd c hc

theorem Memory.wf_nil : Memory.wf [] := by simp [Memory.wf]

/-- A byte write keeps the canonical form. -/
theorem Memory.wf_writeByte (h : m.wf) : (m.writeByte a b).wf := by
  have herase : (m.erase a).wf := ⟨h.1.filter _, fun c hc => h.2 c (List.mem_filter.mp hc).1⟩
  unfold Memory.writeByte
  by_cases hb : b = unlistedByte
  · simpa [hb] using herase
  · rw [if_neg hb]
    refine ⟨Memory.insertCell_pairwise _ _ _ herase.1 fun c hc => Memory.ne_of_mem_erase m a hc, fun c hc => ?_⟩
    rcases (Memory.mem_insertCell _ _ _ _).mp hc with rfl | hc
    · exact hb
    · exact herase.2 c hc

theorem Memory.below_nil (n : Nat) : Memory.below [] n := by simp [Memory.below]

/-- A byte write below the bound stays below it. -/
theorem Memory.below_writeByte {n : Nat} (h : m.below n) (ha : a < 4 * n) : (m.writeByte a b).below n := by
  have herase : (m.erase a).below n := fun c hc => h c (List.mem_filter.mp hc).1
  unfold Memory.writeByte
  split
  · exact herase
  · intro c hc
    rcases (Memory.mem_insertCell _ _ _ _).mp hc with rfl | hc
    · exact ha
    · exact herase c hc

/-- A memory in canonical form lists exactly the bytes that do not read as an unlisted one. -/
theorem Memory.mem_iff_of_wf (h : m.wf) (c : Host.Cell) :
    c ∈ m ↔ m.readByte c.1 = c.2 ∧ c.2 ≠ unlistedByte := by
  induction m with
  | nil => simp [eq_comm]
  | cons d rest ih =>
    obtain ⟨⟨hd, hrest⟩, hne⟩ := And.imp_left List.pairwise_cons.mp h
    have ih := ih ⟨hrest, fun c hc => hne c (by simp [hc])⟩
    by_cases hcd : d.1 = c.1
    · have hmem : c ∉ rest := fun hc => absurd (hd c hc) (by omega)
      simp only [List.mem_cons, hmem, or_false, Memory.readByte_cons, hcd, if_true]
      constructor
      · rintro rfl
        exact ⟨rfl, hne c (by simp)⟩
      · rintro ⟨h2, -⟩
        exact Prod.ext hcd.symm h2.symm
    · have : c ≠ d := fun e => hcd (by rw [e])
      simp [this, hcd, ih]

/-! ## Words -/

theorem Memory.readByte_writeWord (i : Nat) (v : Word) :
    (m.writeWord i v).readByte a =
      if a = 4 * i then opcodeField v else if a = 4 * i + 1 then op1Field v
      else if a = 4 * i + 2 then op2HiField v else if a = 4 * i + 3 then op2LoField v else m.readByte a := by
  unfold Memory.writeWord
  simp only [Memory.readByte_writeByte]
  split_ifs <;> first | rfl | omega

/-- A word write leaves every byte outside its word. -/
theorem Memory.readByte_writeWord_outside (i : Nat) (v : Word) (h : a < 4 * i ∨ 4 * i + 4 ≤ a) :
    (m.writeWord i v).readByte a = m.readByte a := by
  rw [Memory.readByte_writeWord]
  split_ifs <;> first | rfl | omega

/-- Everything a word write does to the words (R85). -/
theorem Memory.readWord_writeWord (i j : Nat) (v : Word) :
    (m.writeWord i v).readWord j = if j = i then v else m.readWord j := by
  unfold Memory.readWord
  by_cases h : j = i
  · subst h
    simp [Memory.readByte_writeWord, wordOfBytes_fields]
  · rw [if_neg h]
    congr 1 <;> (apply Memory.readByte_writeWord_outside; omega)

theorem Memory.readWord_nil (i : Nat) : Memory.readWord [] i = 0 := by
  simp [Memory.readWord, unlistedByte, wordOfBytes]

/-- A word write keeps the canonical form. -/
theorem Memory.wf_writeWord (h : m.wf) (i : Nat) (v : Word) : (m.writeWord i v).wf :=
  Memory.wf_writeByte _ _ _ (Memory.wf_writeByte _ _ _ (Memory.wf_writeByte _ _ _ (Memory.wf_writeByte _ _ _ h)))

/-- A word write inside `[0, n)` lists nothing outside it. -/
theorem Memory.below_writeWord {n : Nat} (h : m.below n) (i : Nat) (v : Word) (hi : i < n) : (m.writeWord i v).below n := by
  unfold Memory.writeWord
  refine Memory.below_writeByte _ _ _ (Memory.below_writeByte _ _ _ (Memory.below_writeByte _ _ _
    (Memory.below_writeByte _ _ _ h ?_) ?_) ?_) ?_ <;> omega

/-! ## The load -/

/-- A load keeps the canonical form. -/
theorem wf_loadWords (h : m.wf) (i : Nat) (image : List Byte) : (loadWords m i image).wf := by
  fun_induction loadWords m i image with
  | case1 m i b0 b1 b2 b3 rest ih => exact ih (Memory.wf_writeWord _ h _ _)
  | case2 => exact h

/-- A load whose words fit lists nothing outside `[0, n)`. -/
theorem below_loadWords {n : Nat} (h : m.below n) (i : Nat) (image : List Byte) (hfit : i + image.length / 4 ≤ n) :
    (loadWords m i image).below n := by
  fun_induction loadWords m i image with
  | case1 m i b0 b1 b2 b3 rest ih =>
    simp only [List.length_cons] at hfit
    exact ih (Memory.below_writeWord _ h _ _ (by omega)) (by omega)
  | case2 => exact h

/-- The free memory after a failed load is in canonical form. -/
theorem wf_failedLoadMemory (draw n : Nat) : (failedLoadMemory draw n).wf := by
  induction n with
  | zero => exact Memory.wf_nil
  | succ n ih => exact Memory.wf_writeByte _ _ _ ih

/-- The free memory after a failed load lists nothing outside `[0, n)`. -/
theorem below_failedLoadMemory (draw n k : Nat) (hk : k ≤ 4 * n) : (failedLoadMemory draw k).below n := by
  induction k with
  | zero => exact Memory.below_nil n
  | succ k ih => exact Memory.below_writeByte _ _ _ (ih (by omega)) (by omega)

end Sys2Proof.Machine
end

