-- ==== Sys2Proof/Laws/State.lean ====
section
/-! SUPPORT. One lemma per field per update of the state, so that no later proof unfolds a record update. -/

namespace Sys2Proof.Machine

variable (s : State)

/-! ## setIp -/

@[simp] theorem State.setIp_memWords (v : Word) : (s.setIp v).memWords = s.memWords := rfl
@[simp] theorem State.setIp_mem (v : Word) : (s.setIp v).mem = s.mem := rfl
@[simp] theorem State.setIp_ip (v : Word) : (s.setIp v).ip = v := rfl
@[simp] theorem State.setIp_halt (v : Word) : (s.setIp v).halt = s.halt := rfl
@[simp] theorem State.setIp_zero (v : Word) : (s.setIp v).zero = s.zero := rfl
@[simp] theorem State.setIp_ovf (v : Word) : (s.setIp v).ovf = s.ovf := rfl
@[simp] theorem State.setIp_fault (v : Word) : (s.setIp v).fault = s.fault := rfl
@[simp] theorem State.setIp_runState (v : Word) : (s.setIp v).runState = s.runState := rfl
@[simp] theorem State.setIp_outq (v : Word) : (s.setIp v).outq = s.outq := rfl
@[simp] theorem State.setIp_haltSent (v : Word) : (s.setIp v).haltSent = s.haltSent := rfl
@[simp] theorem State.setIp_haltEvents (v : Word) : (s.setIp v).haltEvents = s.haltEvents := rfl
@[simp] theorem State.setIp_loadError (v : Word) : (s.setIp v).loadError = s.loadError := rfl
@[simp] theorem State.setIp_image (v : Word) : (s.setIp v).image = s.image := rfl
@[simp] theorem State.setIp_freeDraws (v : Word) : (s.setIp v).freeDraws = s.freeDraws := rfl

/-! ## setZero -/

@[simp] theorem State.setZero_memWords (b : Bool) : (s.setZero b).memWords = s.memWords := rfl
@[simp] theorem State.setZero_mem (b : Bool) : (s.setZero b).mem = s.mem := rfl
@[simp] theorem State.setZero_ip (b : Bool) : (s.setZero b).ip = s.ip := rfl
@[simp] theorem State.setZero_halt (b : Bool) : (s.setZero b).halt = s.halt := rfl
@[simp] theorem State.setZero_zero (b : Bool) : (s.setZero b).zero = b := rfl
@[simp] theorem State.setZero_ovf (b : Bool) : (s.setZero b).ovf = s.ovf := rfl
@[simp] theorem State.setZero_fault (b : Bool) : (s.setZero b).fault = s.fault := rfl
@[simp] theorem State.setZero_runState (b : Bool) : (s.setZero b).runState = s.runState := rfl
@[simp] theorem State.setZero_outq (b : Bool) : (s.setZero b).outq = s.outq := rfl
@[simp] theorem State.setZero_haltSent (b : Bool) : (s.setZero b).haltSent = s.haltSent := rfl
@[simp] theorem State.setZero_haltEvents (b : Bool) : (s.setZero b).haltEvents = s.haltEvents := rfl
@[simp] theorem State.setZero_loadError (b : Bool) : (s.setZero b).loadError = s.loadError := rfl
@[simp] theorem State.setZero_image (b : Bool) : (s.setZero b).image = s.image := rfl
@[simp] theorem State.setZero_freeDraws (b : Bool) : (s.setZero b).freeDraws = s.freeDraws := rfl

/-! ## setOvf -/

@[simp] theorem State.setOvf_memWords (b : Bool) : (s.setOvf b).memWords = s.memWords := rfl
@[simp] theorem State.setOvf_mem (b : Bool) : (s.setOvf b).mem = s.mem := rfl
@[simp] theorem State.setOvf_ip (b : Bool) : (s.setOvf b).ip = s.ip := rfl
@[simp] theorem State.setOvf_halt (b : Bool) : (s.setOvf b).halt = s.halt := rfl
@[simp] theorem State.setOvf_zero (b : Bool) : (s.setOvf b).zero = s.zero := rfl
@[simp] theorem State.setOvf_ovf (b : Bool) : (s.setOvf b).ovf = b := rfl
@[simp] theorem State.setOvf_fault (b : Bool) : (s.setOvf b).fault = s.fault := rfl
@[simp] theorem State.setOvf_runState (b : Bool) : (s.setOvf b).runState = s.runState := rfl
@[simp] theorem State.setOvf_outq (b : Bool) : (s.setOvf b).outq = s.outq := rfl
@[simp] theorem State.setOvf_haltSent (b : Bool) : (s.setOvf b).haltSent = s.haltSent := rfl
@[simp] theorem State.setOvf_haltEvents (b : Bool) : (s.setOvf b).haltEvents = s.haltEvents := rfl
@[simp] theorem State.setOvf_loadError (b : Bool) : (s.setOvf b).loadError = s.loadError := rfl
@[simp] theorem State.setOvf_image (b : Bool) : (s.setOvf b).image = s.image := rfl
@[simp] theorem State.setOvf_freeDraws (b : Bool) : (s.setOvf b).freeDraws = s.freeDraws := rfl

/-! ## setHalt -/

@[simp] theorem State.setHalt_memWords : (s.setHalt).memWords = s.memWords := rfl
@[simp] theorem State.setHalt_mem : (s.setHalt).mem = s.mem := rfl
@[simp] theorem State.setHalt_ip : (s.setHalt).ip = s.ip := rfl
@[simp] theorem State.setHalt_halt : (s.setHalt).halt = true := rfl
@[simp] theorem State.setHalt_zero : (s.setHalt).zero = s.zero := rfl
@[simp] theorem State.setHalt_ovf : (s.setHalt).ovf = s.ovf := rfl
@[simp] theorem State.setHalt_fault : (s.setHalt).fault = s.fault := rfl
@[simp] theorem State.setHalt_runState : (s.setHalt).runState = s.runState := rfl
@[simp] theorem State.setHalt_outq : (s.setHalt).outq = s.outq := rfl
@[simp] theorem State.setHalt_haltSent : (s.setHalt).haltSent = s.haltSent := rfl
@[simp] theorem State.setHalt_haltEvents : (s.setHalt).haltEvents = s.haltEvents := rfl
@[simp] theorem State.setHalt_loadError : (s.setHalt).loadError = s.loadError := rfl
@[simp] theorem State.setHalt_image : (s.setHalt).image = s.image := rfl
@[simp] theorem State.setHalt_freeDraws : (s.setHalt).freeDraws = s.freeDraws := rfl

/-! ## setFault -/

@[simp] theorem State.setFault_memWords (r : FaultRecord) : (s.setFault r).memWords = s.memWords := rfl
@[simp] theorem State.setFault_mem (r : FaultRecord) : (s.setFault r).mem = s.mem := rfl
@[simp] theorem State.setFault_ip (r : FaultRecord) : (s.setFault r).ip = s.ip := rfl
@[simp] theorem State.setFault_halt (r : FaultRecord) : (s.setFault r).halt = s.halt := rfl
@[simp] theorem State.setFault_zero (r : FaultRecord) : (s.setFault r).zero = s.zero := rfl
@[simp] theorem State.setFault_ovf (r : FaultRecord) : (s.setFault r).ovf = s.ovf := rfl
@[simp] theorem State.setFault_fault (r : FaultRecord) : (s.setFault r).fault = r := rfl
@[simp] theorem State.setFault_runState (r : FaultRecord) : (s.setFault r).runState = s.runState := rfl
@[simp] theorem State.setFault_outq (r : FaultRecord) : (s.setFault r).outq = s.outq := rfl
@[simp] theorem State.setFault_haltSent (r : FaultRecord) : (s.setFault r).haltSent = s.haltSent := rfl
@[simp] theorem State.setFault_haltEvents (r : FaultRecord) : (s.setFault r).haltEvents = s.haltEvents := rfl
@[simp] theorem State.setFault_loadError (r : FaultRecord) : (s.setFault r).loadError = s.loadError := rfl
@[simp] theorem State.setFault_image (r : FaultRecord) : (s.setFault r).image = s.image := rfl
@[simp] theorem State.setFault_freeDraws (r : FaultRecord) : (s.setFault r).freeDraws = s.freeDraws := rfl

/-! ## setRunState -/

@[simp] theorem State.setRunState_memWords (r : RunState) : (s.setRunState r).memWords = s.memWords := rfl
@[simp] theorem State.setRunState_mem (r : RunState) : (s.setRunState r).mem = s.mem := rfl
@[simp] theorem State.setRunState_ip (r : RunState) : (s.setRunState r).ip = s.ip := rfl
@[simp] theorem State.setRunState_halt (r : RunState) : (s.setRunState r).halt = s.halt := rfl
@[simp] theorem State.setRunState_zero (r : RunState) : (s.setRunState r).zero = s.zero := rfl
@[simp] theorem State.setRunState_ovf (r : RunState) : (s.setRunState r).ovf = s.ovf := rfl
@[simp] theorem State.setRunState_fault (r : RunState) : (s.setRunState r).fault = s.fault := rfl
@[simp] theorem State.setRunState_runState (r : RunState) : (s.setRunState r).runState = r := rfl
@[simp] theorem State.setRunState_outq (r : RunState) : (s.setRunState r).outq = s.outq := rfl
@[simp] theorem State.setRunState_haltSent (r : RunState) : (s.setRunState r).haltSent = s.haltSent := rfl
@[simp] theorem State.setRunState_haltEvents (r : RunState) : (s.setRunState r).haltEvents = s.haltEvents := rfl
@[simp] theorem State.setRunState_loadError (r : RunState) : (s.setRunState r).loadError = s.loadError := rfl
@[simp] theorem State.setRunState_image (r : RunState) : (s.setRunState r).image = s.image := rfl
@[simp] theorem State.setRunState_freeDraws (r : RunState) : (s.setRunState r).freeDraws = s.freeDraws := rfl

/-! ## setMem -/

@[simp] theorem State.setMem_memWords (m : Memory) : (s.setMem m).memWords = s.memWords := rfl
@[simp] theorem State.setMem_mem (m : Memory) : (s.setMem m).mem = m := rfl
@[simp] theorem State.setMem_ip (m : Memory) : (s.setMem m).ip = s.ip := rfl
@[simp] theorem State.setMem_halt (m : Memory) : (s.setMem m).halt = s.halt := rfl
@[simp] theorem State.setMem_zero (m : Memory) : (s.setMem m).zero = s.zero := rfl
@[simp] theorem State.setMem_ovf (m : Memory) : (s.setMem m).ovf = s.ovf := rfl
@[simp] theorem State.setMem_fault (m : Memory) : (s.setMem m).fault = s.fault := rfl
@[simp] theorem State.setMem_runState (m : Memory) : (s.setMem m).runState = s.runState := rfl
@[simp] theorem State.setMem_outq (m : Memory) : (s.setMem m).outq = s.outq := rfl
@[simp] theorem State.setMem_haltSent (m : Memory) : (s.setMem m).haltSent = s.haltSent := rfl
@[simp] theorem State.setMem_haltEvents (m : Memory) : (s.setMem m).haltEvents = s.haltEvents := rfl
@[simp] theorem State.setMem_loadError (m : Memory) : (s.setMem m).loadError = s.loadError := rfl
@[simp] theorem State.setMem_image (m : Memory) : (s.setMem m).image = s.image := rfl
@[simp] theorem State.setMem_freeDraws (m : Memory) : (s.setMem m).freeDraws = s.freeDraws := rfl

/-! ## memWrite -/

@[simp] theorem State.memWrite_memWords (a v : Word) : (s.memWrite a v).memWords = s.memWords := rfl
@[simp] theorem State.memWrite_mem (a v : Word) : (s.memWrite a v).mem = s.mem.writeWord a.toNat v := rfl
@[simp] theorem State.memWrite_ip (a v : Word) : (s.memWrite a v).ip = s.ip := rfl
@[simp] theorem State.memWrite_halt (a v : Word) : (s.memWrite a v).halt = s.halt := rfl
@[simp] theorem State.memWrite_zero (a v : Word) : (s.memWrite a v).zero = s.zero := rfl
@[simp] theorem State.memWrite_ovf (a v : Word) : (s.memWrite a v).ovf = s.ovf := rfl
@[simp] theorem State.memWrite_fault (a v : Word) : (s.memWrite a v).fault = s.fault := rfl
@[simp] theorem State.memWrite_runState (a v : Word) : (s.memWrite a v).runState = s.runState := rfl
@[simp] theorem State.memWrite_outq (a v : Word) : (s.memWrite a v).outq = s.outq := rfl
@[simp] theorem State.memWrite_haltSent (a v : Word) : (s.memWrite a v).haltSent = s.haltSent := rfl
@[simp] theorem State.memWrite_haltEvents (a v : Word) : (s.memWrite a v).haltEvents = s.haltEvents := rfl
@[simp] theorem State.memWrite_loadError (a v : Word) : (s.memWrite a v).loadError = s.loadError := rfl
@[simp] theorem State.memWrite_image (a v : Word) : (s.memWrite a v).image = s.image := rfl
@[simp] theorem State.memWrite_freeDraws (a v : Word) : (s.memWrite a v).freeDraws = s.freeDraws := rfl

/-! ## emit -/

@[simp] theorem State.emit_memWords (c : Byte) : (s.emit c).memWords = s.memWords := rfl
@[simp] theorem State.emit_mem (c : Byte) : (s.emit c).mem = s.mem := rfl
@[simp] theorem State.emit_ip (c : Byte) : (s.emit c).ip = s.ip := rfl
@[simp] theorem State.emit_halt (c : Byte) : (s.emit c).halt = s.halt := rfl
@[simp] theorem State.emit_zero (c : Byte) : (s.emit c).zero = s.zero := rfl
@[simp] theorem State.emit_ovf (c : Byte) : (s.emit c).ovf = s.ovf := rfl
@[simp] theorem State.emit_fault (c : Byte) : (s.emit c).fault = s.fault := rfl
@[simp] theorem State.emit_runState (c : Byte) : (s.emit c).runState = s.runState := rfl
@[simp] theorem State.emit_outq (c : Byte) : (s.emit c).outq = s.outq ++ [c] := rfl
@[simp] theorem State.emit_haltSent (c : Byte) : (s.emit c).haltSent = s.haltSent := rfl
@[simp] theorem State.emit_haltEvents (c : Byte) : (s.emit c).haltEvents = s.haltEvents := rfl
@[simp] theorem State.emit_loadError (c : Byte) : (s.emit c).loadError = s.loadError := rfl
@[simp] theorem State.emit_image (c : Byte) : (s.emit c).image = s.image := rfl
@[simp] theorem State.emit_freeDraws (c : Byte) : (s.emit c).freeDraws = s.freeDraws := rfl

/-! ## writeOperand -/

@[simp] theorem State.writeOperand_memWords (f : Byte) (v : Word) : (s.writeOperand f v).memWords = s.memWords := rfl
@[simp] theorem State.writeOperand_mem (f : Byte) (v : Word) : (s.writeOperand f v).mem = s.mem.writeWord (directAddr f).toNat v := rfl
@[simp] theorem State.writeOperand_ip (f : Byte) (v : Word) : (s.writeOperand f v).ip = s.ip := rfl
@[simp] theorem State.writeOperand_halt (f : Byte) (v : Word) : (s.writeOperand f v).halt = s.halt := rfl
@[simp] theorem State.writeOperand_zero (f : Byte) (v : Word) : (s.writeOperand f v).zero = s.zero := rfl
@[simp] theorem State.writeOperand_ovf (f : Byte) (v : Word) : (s.writeOperand f v).ovf = s.ovf := rfl
@[simp] theorem State.writeOperand_fault (f : Byte) (v : Word) : (s.writeOperand f v).fault = s.fault := rfl
@[simp] theorem State.writeOperand_runState (f : Byte) (v : Word) : (s.writeOperand f v).runState = s.runState := rfl
@[simp] theorem State.writeOperand_outq (f : Byte) (v : Word) : (s.writeOperand f v).outq = s.outq := rfl
@[simp] theorem State.writeOperand_haltSent (f : Byte) (v : Word) : (s.writeOperand f v).haltSent = s.haltSent := rfl
@[simp] theorem State.writeOperand_haltEvents (f : Byte) (v : Word) : (s.writeOperand f v).haltEvents = s.haltEvents := rfl
@[simp] theorem State.writeOperand_loadError (f : Byte) (v : Word) : (s.writeOperand f v).loadError = s.loadError := rfl
@[simp] theorem State.writeOperand_image (f : Byte) (v : Word) : (s.writeOperand f v).image = s.image := rfl
@[simp] theorem State.writeOperand_freeDraws (f : Byte) (v : Word) : (s.writeOperand f v).freeDraws = s.freeDraws := rfl

/-! ## signalHalt -/

@[simp] theorem signalHalt_memWords : (signalHalt s).memWords = s.memWords := by unfold signalHalt; split <;> rfl
@[simp] theorem signalHalt_mem : (signalHalt s).mem = s.mem := by unfold signalHalt; split <;> rfl
@[simp] theorem signalHalt_ip : (signalHalt s).ip = s.ip := by unfold signalHalt; split <;> rfl
@[simp] theorem signalHalt_halt : (signalHalt s).halt = s.halt := by unfold signalHalt; split <;> rfl
@[simp] theorem signalHalt_zero : (signalHalt s).zero = s.zero := by unfold signalHalt; split <;> rfl
@[simp] theorem signalHalt_ovf : (signalHalt s).ovf = s.ovf := by unfold signalHalt; split <;> rfl
@[simp] theorem signalHalt_fault : (signalHalt s).fault = s.fault := by unfold signalHalt; split <;> rfl
@[simp] theorem signalHalt_runState : (signalHalt s).runState = s.runState := by unfold signalHalt; split <;> rfl
@[simp] theorem signalHalt_outq : (signalHalt s).outq = s.outq := by unfold signalHalt; split <;> rfl
@[simp] theorem signalHalt_loadError : (signalHalt s).loadError = s.loadError := by unfold signalHalt; split <;> rfl
@[simp] theorem signalHalt_image : (signalHalt s).image = s.image := by unfold signalHalt; split <;> rfl
@[simp] theorem signalHalt_freeDraws : (signalHalt s).freeDraws = s.freeDraws := by unfold signalHalt; split <;> rfl
@[simp] theorem signalHalt_haltSent : (signalHalt s).haltSent = true := by unfold signalHalt; split <;> simp_all
theorem signalHalt_haltEvents :
    (signalHalt s).haltEvents = if s.haltSent then s.haltEvents else s.haltEvents + 1 := by
  unfold signalHalt; split <;> simp_all

/-! ## faultEntry -/

@[simp] theorem faultEntry_memWords (r : FaultRecord) : (faultEntry r s).memWords = s.memWords := by simp [faultEntry]
@[simp] theorem faultEntry_mem (r : FaultRecord) : (faultEntry r s).mem = s.mem := by simp [faultEntry]
@[simp] theorem faultEntry_ip (r : FaultRecord) : (faultEntry r s).ip = s.ip := by simp [faultEntry]
@[simp] theorem faultEntry_halt (r : FaultRecord) : (faultEntry r s).halt = true := by simp [faultEntry]
@[simp] theorem faultEntry_zero (r : FaultRecord) : (faultEntry r s).zero = s.zero := by simp [faultEntry]
@[simp] theorem faultEntry_ovf (r : FaultRecord) : (faultEntry r s).ovf = s.ovf := by simp [faultEntry]
@[simp] theorem faultEntry_fault (r : FaultRecord) : (faultEntry r s).fault = r := by simp [faultEntry]
@[simp] theorem faultEntry_runState (r : FaultRecord) : (faultEntry r s).runState = .halted := by simp [faultEntry]
@[simp] theorem faultEntry_outq (r : FaultRecord) : (faultEntry r s).outq = s.outq := by simp [faultEntry]
@[simp] theorem faultEntry_haltSent (r : FaultRecord) : (faultEntry r s).haltSent = true := by simp [faultEntry]
@[simp] theorem faultEntry_loadError (r : FaultRecord) : (faultEntry r s).loadError = s.loadError := by simp [faultEntry]
@[simp] theorem faultEntry_image (r : FaultRecord) : (faultEntry r s).image = s.image := by simp [faultEntry]
@[simp] theorem faultEntry_freeDraws (r : FaultRecord) : (faultEntry r s).freeDraws = s.freeDraws := by simp [faultEntry]
theorem faultEntry_haltEvents (r : FaultRecord) :
    (faultEntry r s).haltEvents = if s.haltSent then s.haltEvents else s.haltEvents + 1 :=
  signalHalt_haltEvents _

/-! ## The checked write -/

@[simp] theorem State.writeChecked_some (a r : Word) : s.writeChecked a (some r) = (s.memWrite a r).setOvf false := rfl
@[simp] theorem State.writeChecked_none (a : Word) : s.writeChecked a none = s.setOvf true := rfl

/-! ## Reset -/

@[simp] theorem State.resetWith_memWords (n : Nat) : (State.resetWith n).memWords = n := rfl
@[simp] theorem State.resetWith_mem (n : Nat) : (State.resetWith n).mem = [] := rfl
@[simp] theorem State.resetWith_ip (n : Nat) : (State.resetWith n).ip = 0 := rfl
@[simp] theorem State.resetWith_halt (n : Nat) : (State.resetWith n).halt = false := rfl
@[simp] theorem State.resetWith_zero (n : Nat) : (State.resetWith n).zero = false := rfl
@[simp] theorem State.resetWith_ovf (n : Nat) : (State.resetWith n).ovf = false := rfl
@[simp] theorem State.resetWith_fault (n : Nat) : (State.resetWith n).fault = .none := rfl
@[simp] theorem State.resetWith_runState (n : Nat) : (State.resetWith n).runState = .idle := rfl
@[simp] theorem State.resetWith_outq (n : Nat) : (State.resetWith n).outq = [] := rfl
@[simp] theorem State.resetWith_haltSent (n : Nat) : (State.resetWith n).haltSent = false := rfl
@[simp] theorem State.resetWith_haltEvents (n : Nat) : (State.resetWith n).haltEvents = 0 := rfl
@[simp] theorem State.resetWith_loadError (n : Nat) : (State.resetWith n).loadError = false := rfl
@[simp] theorem State.resetWith_image (n : Nat) : (State.resetWith n).image = .absent := rfl
@[simp] theorem State.resetWith_freeDraws (n : Nat) : (State.resetWith n).freeDraws = 0 := rfl

end Sys2Proof.Machine
end

