-- ==== Sys2Proof/Laws/Ops.lean ====
section
/-! SUPPORT. One lemma per shared operation that says everything it can do; the meanings are taken apart with these. -/

namespace Sys2Proof.Machine

/-! ## Address checks -/

theorem State.inMemory_iff (s : State) (a : Word) : s.inMemory a = true ↔ a.toNat < s.memWords := by
  simp [State.inMemory]

theorem checkAddr_inside (a : Word) (s : State) (rest : Result) (h : a.toNat < s.memWords) :
    checkAddr a s rest = rest := by
  simp [checkAddr, State.inMemory, h]

theorem checkAddr_outside (a : Word) (s : State) (rest : Result) (h : s.memWords ≤ a.toNat) :
    checkAddr a s rest = .next (faultEntry (.addressFault s.ip a) s) := by
  simp [checkAddr, State.inMemory, raiseAddressFault, Nat.not_lt.mpr h]

/-- Everything a check does: the rest runs, or AddressFault is taken. -/
theorem checkAddr_cases {a : Word} {s t : State} {rest : Result} (h : checkAddr a s rest = .next t) :
    (a.toNat < s.memWords ∧ rest = .next t) ∨
      (s.memWords ≤ a.toNat ∧ t = faultEntry (.addressFault s.ip a) s) := by
  by_cases ha : a.toNat < s.memWords
  · exact .inl ⟨ha, by rwa [checkAddr_inside _ _ _ ha] at h⟩
  · rw [checkAddr_outside _ _ _ (Nat.not_lt.mp ha)] at h
    exact .inr ⟨Nat.not_lt.mp ha, by simpa using h.symm⟩

@[simp] theorem directAddr_toNat (f : Byte) : (directAddr f).toNat = f.toNat := by
  simp only [directAddr, BitVec.toNat_setWidth]
  omega

@[simp] theorem jumpTarget_toNat (f : Byte) : (jumpTarget f).toNat = f.toNat := directAddr_toNat f

@[simp] theorem immediate_toNat (i : Imm16) : (immediate i).toNat = i.toNat := by
  simp only [immediate, BitVec.toNat_setWidth]
  omega

/-! ## The end of a step -/

theorem retire_running (nextIp : Word) (s : State) (h : s.halt = false) : retire nextIp s = .next (s.setIp nextIp) := by
  simp [retire, h]

theorem retire_halting (nextIp : Word) (s : State) (h : s.halt = true) :
    retire nextIp s = .next (signalHalt (s.setRunState .halted)) := by
  simp [retire, h]

/-- Everything the end of a step does (R144). -/
theorem retire_cases {nextIp : Word} {s t : State} (h : retire nextIp s = .next t) :
    (s.halt = false ∧ t = s.setIp nextIp) ∨ (s.halt = true ∧ t = signalHalt (s.setRunState .halted)) := by
  cases hs : s.halt
  · exact .inl ⟨rfl, by simpa [retire_running _ _ hs] using h.symm⟩
  · exact .inr ⟨rfl, by simpa [retire_halting _ _ hs] using h.symm⟩

/-! ## The ALU -/

theorem narrow_eq_some {n : Nat} {r : Word} : narrow n = some r ↔ n ≤ maxWord ∧ r.toNat = n := by
  unfold narrow
  by_cases h : n ≤ maxWord
  · have hn : n % 2 ^ 32 = n := Nat.mod_eq_of_lt (by simp [maxWord] at h; omega)
    simp only [h, if_true, Option.some.injEq, true_and]
    constructor
    · rintro rfl
      simpa using hn
    · intro hr
      apply BitVec.eq_of_toNat_eq
      simp only [BitVec.toNat_ofNat]
      omega
  · simp [h]

theorem narrow_eq_none {n : Nat} : narrow n = none ↔ maxWord < n := by
  simp [narrow]

/-- Everything the checked add does (R180). -/
theorem aluAdd_eq_some {a b r : Word} :
    aluAdd a b = some r ↔ a.toNat + b.toNat ≤ maxWord ∧ r.toNat = a.toNat + b.toNat := narrow_eq_some

theorem aluAdd_eq_none {a b : Word} : aluAdd a b = none ↔ maxWord < a.toNat + b.toNat := narrow_eq_none

/-- Everything the checked subtract does (R186). -/
theorem aluSub_eq_some {a b r : Word} :
    aluSub a b = some r ↔ b.toNat ≤ a.toNat ∧ r.toNat = a.toNat - b.toNat := by
  unfold aluSub
  by_cases h : b.toNat > a.toNat
  · simp only [h, if_true, reduceCtorEq, false_iff]
    omega
  · have := a.isLt
    simp only [h, if_false, narrow_eq_some, maxWord]
    omega

theorem aluSub_eq_none {a b : Word} : aluSub a b = none ↔ a.toNat < b.toNat := by
  unfold aluSub
  by_cases h : b.toNat > a.toNat
  · simp [h]
  · have := a.isLt
    rw [if_neg h, narrow_eq_none, maxWord]
    omega

/-- Everything the checked multiply does (R192). -/
theorem aluMul_eq_some {a b r : Word} :
    aluMul a b = some r ↔ a.toNat * b.toNat ≤ maxWord ∧ r.toNat = a.toNat * b.toNat := narrow_eq_some

theorem aluMul_eq_none {a b : Word} : aluMul a b = none ↔ maxWord < a.toNat * b.toNat := narrow_eq_none

/-- Everything the divide does (R198): the quotient never overflows. -/
theorem aluDiv_eq_some {a b r : Word} : aluDiv a b = some r ↔ b.toNat ≠ 0 ∧ r.toNat = a.toNat / b.toNat := by
  unfold aluDiv
  by_cases h : b.toNat = 0
  · simp [h]
  · have := a.isLt
    have := Nat.div_le_self a.toNat b.toNat
    simp only [h, if_false, narrow_eq_some, maxWord, ne_eq, not_false_eq_true, true_and, and_iff_right_iff_imp]
    omega

theorem aluDiv_eq_none {a b : Word} : aluDiv a b = none ↔ b.toNat = 0 := by
  unfold aluDiv
  by_cases h : b.toNat = 0
  · simp [h]
  · have := a.isLt
    have := Nat.div_le_self a.toNat b.toNat
    simp only [h, if_false, narrow_eq_none, maxWord, iff_false]
    omega

@[simp] theorem aluEqual_iff {a b : Word} : aluEqual a b = true ↔ a = b := by
  simp [aluEqual]

/-! ## Fetch, load and step -/

/-- Everything the fetch does (R141). -/
theorem fetch_eq_some {s : State} {w : Word} :
    fetch s = some w ↔ s.ip.toNat < s.memWords ∧ s.mem.readWord s.ip.toNat = w := by
  by_cases h : s.ip.toNat < s.memWords <;> simp [fetch, State.inMemory, State.memRead, h]

theorem fetch_eq_none {s : State} : fetch s = none ↔ s.memWords ≤ s.ip.toNat := by
  simp [fetch, State.inMemory]

/-- Everything the loader does (R292, R294). -/
theorem loaderStep_cases (s : State) :
    loaderStep s = s ∨ (s.loadError = false ∧ loaderStep s = loadFail s) ∨
      ∃ image, s.loadError = false ∧ s.image = .bytes image ∧ imageFits image s.memWords = true ∧
        loaderStep s = loadImage image s := by
  unfold loaderStep
  cases hl : s.loadError
  · rw [if_neg (by simp)]
    cases hi : s.image with
    | absent => exact .inl rfl
    | unreadable => exact .inr (.inl ⟨rfl, rfl⟩)
    | bytes image =>
      cases hf : imageFits image s.memWords
      · exact .inr (.inl ⟨rfl, by simp [hf]⟩)
      · exact .inr (.inr ⟨image, rfl, rfl, hf, by simp [hf]⟩)
  · exact .inl (by simp)

/-- Everything a step does. -/
theorem step_cases {s t : State} (h : step s = .next t) :
    Config.capacityOk s.memWords = true ∧
      ((s.runState = .idle ∧ t = loaderStep s) ∨
        (s.runState = .running ∧ s.memWords ≤ s.ip.toNat ∧ t = faultEntry (.addressFault s.ip s.ip) s) ∨
        (s.runState = .running ∧ ∃ w, fetch s = some w ∧ exec (decode w) s = .next t) ∨
        (s.runState = .halted ∧ t = s)) := by
  unfold step at h
  by_cases hc : Config.capacityOk s.memWords = true
  · refine ⟨hc, ?_⟩
    rw [if_pos hc] at h
    cases hr : s.runState with
    | idle => rw [hr] at h; exact .inl ⟨rfl, by simpa using h.symm⟩
    | halted => rw [hr] at h; exact .inr (.inr (.inr ⟨rfl, by simpa using h.symm⟩))
    | running =>
      rw [hr] at h
      simp only [engineStep] at h
      cases hf : fetch s with
      | none =>
        rw [hf] at h
        exact .inr (.inl ⟨rfl, fetch_eq_none.mp hf, by simpa [raiseAddressFault] using h.symm⟩)
      | some w => rw [hf] at h; exact .inr (.inr (.inl ⟨rfl, w, rfl, h⟩))
  · rw [if_neg hc] at h
    cases h

/-- The step after `withFetchWord` runs exactly the placed instruction. -/
theorem step_withFetchWord (s : State) (nbits w : Nat) (hc : Config.capacityOk s.memWords = true)
    (hip : s.ip.toNat < s.memWords) :
    step (s.withFetchWord nbits w) = exec (decode (tableWord nbits w)) (s.withFetchWord nbits w) := by
  have hf : fetch (s.withFetchWord nbits w) = some (tableWord nbits w) := by
    rw [fetch_eq_some]
    simp [State.withFetchWord, placeFetchWord, hip, Memory.readWord_writeWord]
  have hc' : Config.capacityOk (s.withFetchWord nbits w).memWords = true := hc
  have hr : (s.withFetchWord nbits w).runState = .running := rfl
  unfold step
  rw [if_pos hc', hr]
  simp only [engineStep, hf]

end Sys2Proof.Machine
end

