-- ==== Sys2Proof/Laws/PerInstr.lean ====
section
/-! SUPPORT. Facts about every instruction as syntax, one lemma per constructor. -/

namespace Sys2Proof.Laws.EncodesItsOpcode

/-- The high byte of an instruction's encoding is its opcode, and that opcode is one of R111 (R101, R111, R115). -/
def Statement (i : Instr) : Prop :=
  ∀ w : Word, encode i = some w → opcodeField w = opcodeOf i ∧ knownOpcode (opcodeOf i) = true

theorem of_bytes {i : Instr} {a b c d : Byte} (he : encode i = some (wordOfBytes a b c d)) (ho : opcodeOf i = a)
    (hk : knownOpcode a = true) : Statement i := by
  intro w hw
  rw [he, Option.some.injEq] at hw
  subst hw
  rw [opcodeField_wordOfBytes, ho]
  exact ⟨rfl, hk⟩

theorem mov (dst src : Byte) : Statement (.mov dst src) := of_bytes rfl rfl (by decide)
theorem str (dst : Byte) (imm : Imm16) : Statement (.str dst imm) := of_bytes rfl rfl (by decide)
theorem adi (dst : Byte) (imm : Imm16) : Statement (.adi dst imm) := of_bytes rfl rfl (by decide)
theorem sui (dst : Byte) (imm : Imm16) : Statement (.sui dst imm) := of_bytes rfl rfl (by decide)
theorem jmp (target : Byte) : Statement (.jmp target) := of_bytes rfl rfl (by decide)
theorem jz (target : Byte) : Statement (.jz target) := of_bytes rfl rfl (by decide)
theorem cmp (a b : Byte) : Statement (.cmp a b) := of_bytes rfl rfl (by decide)
theorem prn (addr : Byte) : Statement (.prn addr) := of_bytes rfl rfl (by decide)
theorem mul (dst src : Byte) : Statement (.mul dst src) := of_bytes rfl rfl (by decide)
theorem div (dst src : Byte) : Statement (.div dst src) := of_bytes rfl rfl (by decide)
theorem mop (dst src : Byte) : Statement (.mop dst src) := of_bytes rfl rfl (by decide)
theorem eof : Statement .eof := of_bytes rfl rfl (by decide)
theorem unknown (opcode : Byte) : Statement (.unknown opcode) := fun _ hw => by cases hw

end Sys2Proof.Laws.EncodesItsOpcode
end

