-- ==== Sys2Proof/Tests/Slice0.lean ====
section
/-! SUPPORT. Our own tests. Expected values are those of the vectors and worked examples of 95_test_vectors.md and of the rules they
name; the witnesses show that the hypotheses of the statements can be met, each clause at a boundary of its range. -/

namespace Sys2Proof.Tests

open Sys2Proof.Machine

/-! ## Small states -/

/-- A Running core of `n` words at `ip`, memory zero but for the words listed. -/
def at_ (n : Nat) (ip : Word) (words : List (Nat × Word)) : State :=
  { State.resetWith n with
    runState := .running, ip := ip, mem := words.foldl (fun m p => m.writeWord p.1 p.2) [] }

/-- The state a step or an instruction answers. -/
def nextOf : Result → Option State
  | .next s => some s
  | .fault _ => none
  | .refused _ => none

/-- What the tests look at: a word of memory, `ip`, `HALT`, `ZERO` and `OVF`. -/
def view (i : Nat) (r : Result) : Option (Word × Word × Bool × Bool × Bool) :=
  (nextOf r).map fun s => (s.mem.readWord i, s.ip, s.halt, s.zero, s.ovf)

/-- `FAULT`, `ip` and `RUNSTATE` after a step. -/
def faultView (r : Result) : Option (FaultRecord × Word × RunState) :=
  (nextOf r).map fun s => (s.fault, s.ip, s.runState)

/-! ## WellFormed: an ill-formed term for each check -/

theorem test_unknown_with_known_opcode_is_ill_formed : ¬ WellFormed (.unknown 0x01) := by decide
theorem test_unknown_with_eof_opcode_is_ill_formed : ¬ WellFormed (.unknown 0xFF) := by decide
theorem test_unknown_0C_is_well_formed : WellFormed (.unknown 0x0C) := by decide

/-! ## Decode: every constructor from a word written out from the layout of R101 (DE1 to DE18) -/

theorem test_decode_mov : decode 0x01050007 = .mov 5 7 := by decide
theorem test_decode_mov_ignores_op2_hi : decode 0x01051107 = .mov 5 7 := by decide
theorem test_decode_mop : decode 0x0B970096 = .mop 151 150 := by decide
theorem test_decode_str : decode 0x0203ABCD = .str 3 0xABCD := by decide
theorem test_decode_adi : decode 0x03000005 = .adi 0 5 := by decide
theorem test_decode_sui : decode 0x04640001 = .sui 100 1 := by decide
theorem test_decode_jmp : decode 0x05FF0000 = .jmp 255 := by decide
theorem test_decode_jz : decode 0x06070000 = .jz 7 := by decide
theorem test_decode_cmp_takes_op2_hi : decode 0x07050607 = .cmp 5 6 := by decide
theorem test_decode_prn : decode 0x08660000 = .prn 102 := by decide
theorem test_decode_mul : decode 0x09000001 = .mul 0 1 := by decide
theorem test_decode_div : decode 0x0A000001 = .div 0 1 := by decide
theorem test_decode_eof_ignores_low_bits : decode 0xFF123456 = .eof := by decide
theorem test_decode_zero_word : decode 0x00000000 = .unknown 0 := by decide
theorem test_decode_last_unknown : decode 0xFE000000 = .unknown 0xFE := by decide
theorem test_encode_str : encode (.str 3 0xABCD) = some 0x0203ABCD := by decide
theorem test_encode_cmp : encode (.cmp 5 6) = some 0x07050600 := by decide
theorem test_decodeBytes_is_big_endian : decodeBytes [0x0B, 0x97, 0x00, 0x96, 0xAA] = .ok (.mop 151 150, [0xAA]) := rfl
theorem test_decodeBytes_rejects_three_bytes : decodeBytes [0x0B, 0x97, 0x00] = .error .truncated := rfl
theorem test_decodeTableWord : decodeTableWord 32 0x0A000001 = some (.div 0 1) := by decide

/-! ## Instructions, one step each -/

/-- MV1. -/
theorem test_mov : view 5 (step (at_ 500 0 [(0, 0x01050007), (7, 0x12345678)])) = some (0x12345678, 1, false, false, false) := by
  decide
/-- MV4: `op1` is checked first. -/
theorem test_mov_checks_op1_first : faultView (step (at_ 4 0 [(0, 0x01090007)])) = some (.addressFault 0 9, 0, .halted) := by
  decide
/-- MP4: an index above 255 is reachable. -/
theorem test_mop : view 11 (step (at_ 500 0 [(0, 0x0B0B000A), (10, 300), (300, 7)])) = some (7, 1, false, false, false) := by
  decide
/-- MP3. -/
theorem test_mop_pointer_fault :
    faultView (step (at_ 500 1 [(1, 0x0B0B000A), (10, 0xFFFFFFFF)])) = some (.addressFault 1 0xFFFFFFFF, 1, .halted) := by decide
/-- ST1. -/
theorem test_str_leaves_flags :
    view 9 (step { at_ 500 0 [(0, 0x0209000A)] with zero := true, ovf := true }) = some (10, 1, false, true, true) := by decide
/-- W3: the instruction overwrites its own word (R83). -/
theorem test_str_over_itself : view 0 (step (at_ 500 0 [(0, 0x0200000A)])) = some (10, 1, false, false, false) := by decide
/-- AD4, with `OVF` set before. -/
theorem test_adi_to_max : view 1 (step { at_ 500 0 [(0, 0x0301FFFF), (1, 0xFFFF0000)] with ovf := true }) =
    some (0xFFFFFFFF, 1, false, false, false) := by decide
/-- AD5: the exact sum is `2^32`. -/
theorem test_adi_overflow : view 1 (step (at_ 500 0 [(0, 0x03010010), (1, 0xFFFFFFF0)])) =
    some (0xFFFFFFF0, 1, false, false, true) := by decide
/-- SU1. -/
theorem test_sui_to_zero : view 100 (step { at_ 500 0 [(0, 0x04640001), (100, 1)] with ovf := true }) =
    some (0, 1, false, true, false) := by decide
/-- SU6: underflow leaves the word and `ZERO`. -/
theorem test_sui_underflow : view 9 (step { at_ 500 0 [(0, 0x04090006), (9, 5)] with zero := true }) =
    some (5, 1, false, true, true) := by decide
/-- MU6. -/
theorem test_mul_to_max : view 8 (step (at_ 500 0 [(0, 0x09080009), (8, 0xFFFF), (9, 0x10001)])) =
    some (0xFFFFFFFF, 1, false, false, false) := by decide
/-- MU4: `dst = src`. -/
theorem test_mul_overflow : view 8 (step (at_ 500 0 [(0, 0x09080008), (8, 0x10000)])) =
    some (0x10000, 1, false, false, true) := by decide
/-- DV4, with `OVF` set before (DV8). -/
theorem test_div : view 8 (step { at_ 500 0 [(0, 0x0A080009), (8, 0xFFFFFFFF), (9, 2)] with ovf := true }) =
    some (0x7FFFFFFF, 1, false, false, true) := by decide
/-- DV5. -/
theorem test_div_by_zero : faultView (step (at_ 500 2 [(2, 0x0A080009), (8, 9)])) = some (.arithmeticFault 2, 2, .halted) := by
  decide
/-- CM4: the second address is `op2_hi`. -/
theorem test_cmp_equal : view 7 (step (at_ 500 0 [(0, 0x07050607), (5, 7), (6, 7), (7, 8)])) = some (8, 1, false, true, false) := by
  decide
/-- CM2: words that differ in their high bits. -/
theorem test_cmp_clears_zero : view 5 (step { at_ 500 0 [(0, 0x07050600), (5, 1), (6, 0x80000001)] with zero := true }) =
    some (1, 1, false, false, false) := by decide
/-- JM2: target 0. -/
theorem test_jmp_zero : view 0 (step (at_ 500 4 [(4, 0x05000000)])) = some (0, 0, false, false, false) := by decide
/-- JM4: a target outside the Memory Unit is not checked at the jump. -/
theorem test_jmp_outside : view 0 (step (at_ 4 0 [(0, 0x05090000)])) = some (0x05090000, 9, false, false, false) := by decide
/-- JZ1. -/
theorem test_jz_taken : view 0 (step { at_ 500 5 [(5, 0x06070000)] with zero := true }) = some (0, 7, false, true, false) := by decide
/-- JZ2. -/
theorem test_jz_not_taken : view 0 (step (at_ 500 5 [(5, 0x06070000)])) = some (0, 6, false, false, false) := by decide
/-- PR2: the high bits are dropped; the byte goes to the tail. -/
theorem test_prn : (nextOf (step { at_ 500 0 [(0, 0x08030000), (3, 0x148)] with outq := [0x61] })).map (·.outq) =
    some [0x61, 0x48] := by decide
/-- PR5. -/
theorem test_prn_fault_appends_nothing : (nextOf (step (at_ 4 0 [(0, 0x08090000)]))).map (fun s => (s.outq, s.fault)) =
    some ([], .addressFault 0 9) := by decide
/-- EF1. -/
theorem test_eof : (nextOf (step (at_ 500 4 [(4, 0xFF000000)]))).map
    (fun s => (s.halt, s.runState, s.ip, s.haltSent, s.haltEvents, s.fault)) = some (true, .halted, 4, true, 1, .none) := by decide
/-- UK1. -/
theorem test_unknown : step (at_ 500 3 [(3, 0x0C123456)]) = .next { at_ 500 3 [(3, 0x0C123456)] with ip := 4 } := rfl
/-- FE1. -/
theorem test_fetch_outside : faultView (step (at_ 500 500 [])) = some (.addressFault 500 500, 500, .halted) := by decide

/-! ## Boot and boundary -/

/-- LD1, from State.reset. -/
theorem test_load : (nextOf (step { State.reset with image := .bytes [0x02, 0, 0, 0x0A, 0xFF, 0, 0, 0] })).map
    (fun s => (s.mem.readWord 0, s.mem.readWord 1, s.mem.readWord 2, s.runState, s.ip)) =
    some (0x0200000A, 0xFF000000, 0, .running, 0) := by decide
/-- LD3: five bytes. -/
theorem test_load_partial_word : (nextOf (step { State.reset with image := .bytes [2, 0, 0, 0x0A, 0xFF] })).map
    (fun s => (s.loadError, s.runState, s.haltSent, s.outq)) = some (true, .idle, false, []) := by decide
/-- LD2, with `N = 1`: two words. -/
theorem test_load_too_long : (nextOf (step { State.resetWith 1 with image := .bytes [2, 0, 0, 0x0A, 0xFF, 0, 0, 0] })).map
    (fun s => (s.loadError, s.runState)) = some (true, .idle) := by decide
/-- A capacity outside R8 is refused. -/
theorem test_capacity_zero_refused : step (State.resetWith 0) = .refused .capacityOutOfRange := rfl
/-- PR6: the consumer gets the head. -/
theorem test_pop_takes_the_head : (popOutput { State.reset with outq := [0x61, 0x62] }).map (fun p => (p.1, p.2.outq)) =
    some (0x61, [0x62]) := by decide
/-- `withFetchWord` from State.reset: the next step runs the placed instruction. -/
theorem test_withFetchWord : view 9 (step (State.reset.withFetchWord 32 0x0209000A)) = some (10, 1, false, false, false) := by decide
/-- The host's core steps as `step` does. -/
theorem test_core_step : Sys2Proof.core.step (State.resetWith 0) = .refused .capacityOutOfRange := rfl

/-! ## Witnesses: the hypotheses of the statements are met, each clause at a boundary value of its range

`N = 4`: index 3 is the last inside the Memory Unit and index 4 the first outside it. `w4` is the Running core of four words
`[3, 0xFFFFFFFF, 0x10000, 0]` at `ip = 0`. -/

def w4 : State := at_ 4 0 [(0, 3), (1, 0xFFFFFFFF), (2, 0x10000)]

theorem witness_DecodeOfEncode : WellFormed (.unknown 0xFE) ∧ WellFormed (.unknown 0x0C) ∧ WellFormed (.str 255 0xFFFF) := by
  decide
theorem witness_DecoderReadsEveryWord : (0x0C#8).toNat = 0x0C ∧ (0xFE#8).toNat = 0xFE := by decide
theorem witness_IgnoredFields : canonicalise 0x01051107 = canonicalise 0x01050007 ∧ canonicalise 0xFF123456 = canonicalise 0xFF000000 := by
  decide
theorem witness_CanonicalMemories :
    Memory.wf [(0, 1), (3, 0x48)] ∧ ∀ a : Nat, Memory.readByte [(0, 1), (3, 0x48)] a = Memory.readByte [(0, 1), (3, 0x48)] a :=
  ⟨by decide, fun _ => rfl⟩
theorem witness_FetchSees : (3 : Word).toNat < w4.memWords ∧ (4 : Word) ≠ 3 := by decide

/-- `mov`, `mul`, `div`, `cmp`, `str`, `adi`, `sui`, `prn`: fields at 3 (inside) and 4 (outside). -/
theorem witness_address_clauses :
    w4.halt = false ∧ (3 : Byte).toNat < w4.memWords ∧ (0 : Byte).toNat < w4.memWords ∧ w4.memWords ≤ (4 : Byte).toNat ∧
      w4.memWords ≤ (255 : Byte).toNat := by decide
/-- `mop`: pointers 3 (inside) and `0xFFFFFFFF` (outside). -/
theorem witness_Mop :
    w4.halt = false ∧ (w4.mem.readWord (0 : Byte).toNat).toNat < w4.memWords ∧
      w4.memWords ≤ (w4.mem.readWord (1 : Byte).toNat).toNat := by decide
/-- `adi`: the sums `2^32 - 1` and `2^32`. -/
theorem witness_Adi :
    (w4.mem.readWord (1 : Byte).toNat).toNat + (0 : Imm16).toNat < 2 ^ 32 ∧
      2 ^ 32 ≤ (w4.mem.readWord (1 : Byte).toNat).toNat + (1 : Imm16).toNat := by decide
/-- `sui`: the differences 0 and -1. -/
theorem witness_Sui :
    (3 : Imm16).toNat ≤ (w4.mem.readWord (0 : Byte).toNat).toNat ∧
      (w4.mem.readWord (0 : Byte).toNat).toNat < (4 : Imm16).toNat := by decide
/-- `mul`: `3 * 0x10000` and `0x10000 * 0x10000 = 2^32`. -/
theorem witness_Mul :
    (w4.mem.readWord (0 : Byte).toNat).toNat * (w4.mem.readWord (2 : Byte).toNat).toNat < 2 ^ 32 ∧
      2 ^ 32 ≤ (w4.mem.readWord (2 : Byte).toNat).toNat * (w4.mem.readWord (2 : Byte).toNat).toNat := by decide
/-- `div`: a divisor word other than 0, and the zero word at the last index. -/
theorem witness_Div :
    w4.mem.readWord (2 : Byte).toNat ≠ 0 ∧ w4.mem.readWord (3 : Byte).toNat = 0 := by decide
theorem witness_Jmp :
    w4.halt = false ∧ Config.capacityOk w4.memWords = true ∧ w4.runState = .running ∧ w4.memWords ≤ (4 : Byte).toNat := by decide
theorem witness_Jz :
    w4.halt = false ∧ w4.zero = false ∧ ({ w4 with zero := true } : State).zero = true ∧
      ({ w4 with zero := true } : State).halt = false ∧ Config.capacityOk w4.memWords = true ∧ w4.runState = .running ∧
      w4.memWords ≤ (4 : Byte).toNat := by decide
theorem witness_Eof : w4.haltSent = false := by decide
theorem witness_Unknown : knownOpcode (opcodeField 0) = false ∧ knownOpcode (opcodeField 0xFE000000) = false ∧ w4.halt = false := by
  decide

/-- The last index, whose zero word is an unknown opcode. -/
theorem witness_StepRunsTheDecodedInstruction :
    Config.capacityOk w4.memWords = true ∧ ({ w4 with ip := 3 } : State).runState = .running ∧
      ({ w4 with ip := 3 } : State).ip.toNat < w4.memWords ∧ decode (w4.mem.readWord 3) = .unknown 0 := by decide
/-- `ip = N`, and `ip = N - 1`. -/
theorem witness_FetchOutsideMemoryFaults :
    Config.capacityOk w4.memWords = true ∧ w4.runState = .running ∧ w4.memWords ≤ (4 : Word).toNat ∧
      (3 : Word).toNat < w4.memWords := by decide
theorem witness_StrOverItsOwnWord :
    Config.capacityOk (at_ 4 3 [(3, 0x02030007)]).memWords = true ∧ (at_ 4 3 [(3, 0x02030007)]).runState = .running ∧
      (at_ 4 3 [(3, 0x02030007)]).halt = false ∧ (at_ 4 3 [(3, 0x02030007)]).ip.toNat = (3 : Byte).toNat ∧
      (3 : Byte).toNat < (at_ 4 3 [(3, 0x02030007)]).memWords ∧
      decode ((at_ 4 3 [(3, 0x02030007)]).mem.readWord (at_ 4 3 [(3, 0x02030007)]).ip.toNat) = .str 3 7 := by decide
/-- The capacities at the edges of R8, inside and outside. -/
theorem witness_EveryStepAnswers :
    (1 ≤ (State.resetWith 1).memWords ∧ (State.resetWith 1).memWords < 2 ^ 32) ∧
      (State.resetWith (2 ^ 32 - 1)).memWords < 2 ^ 32 ∧ (State.resetWith 0).memWords = 0 ∧
      2 ^ 32 ≤ (State.resetWith (2 ^ 32)).memWords := by decide

/-- A Halted state with a byte still queued. -/
def halted4 : State := { w4 with runState := .halted, halt := true, haltSent := true, haltEvents := 1, outq := [0x48] }

theorem witness_HaltedKeepsEverything :
    Config.capacityOk halted4.memWords = true ∧ halted4.runState = .halted ∧
      popOutput halted4 = some (0x48, { halted4 with outq := [] }) := by decide

/-- A step of a Running engine (a no-op at the last index), of the loader, and of a Halted engine; and one that faults. -/
theorem witness_steps :
    step { w4 with ip := 3 } = .next { w4 with ip := 4 } ∧
      step { State.resetWith 1 with image := .bytes [] } =
        .next { State.resetWith 1 with image := .bytes [], runState := .running } ∧
      step halted4 = .next halted4 ∧
      step { w4 with ip := 4 } = .next (faultEntry (.addressFault 4 4) { w4 with ip := 4 }) := ⟨rfl, rfl, rfl, rfl⟩

/-- An instruction with a next state, for the statements whose hypothesis is `exec i s = .next t` (and `jz` left out). -/
theorem witness_exec : exec (.unknown 0) w4 = .next { w4 with ip := 1 } ∧ ∀ target : Byte, Instr.unknown 0 ≠ .jz target :=
  ⟨rfl, fun _ h => by cases h⟩
/-- `HALT` set and not set before a step that answers. -/
theorem witness_HaltIsNeverCleared :
    halted4.halt = true ∧ ({ w4 with ip := 4 } : State).halt = false ∧
      (faultEntry (.addressFault 4 4) { w4 with ip := 4 }).halt = true := by decide
theorem witness_FaultEntry : w4.haltSent = false := by decide
/-- The three cases of TheFirstFaultInOrderIsTaken: no fetch, a bad address, a zero divisor; and none of them. -/
theorem witness_TheFirstFaultInOrder :
    runningInstr { w4 with ip := 4 } = none ∧ firstBadAddress (.mov 4 255) w4 = some 4 ∧
      (firstBadAddress (.div 0 3) w4 = none ∧ dividesByZero (.div 0 3) w4 = true) ∧
      (firstBadAddress (.div 0 2) w4 = none ∧ dividesByZero (.div 0 2) w4 = false) := by decide
theorem witness_FaultsArePrecise :
    step { w4 with ip := 4 } = .next (faultEntry (.addressFault 4 4) { w4 with ip := 4 }) ∧
      (faultEntry (.addressFault 4 4) { w4 with ip := 4 }).fault ≠ w4.fault := ⟨rfl, by decide⟩
/-- `mov 1 0` with a memory that differs from the state's in a word it does not read. -/
theorem witness_ReadAndWriteOnlyTheirOperands :
    exec (.jmp 3) w4 = .next { w4 with ip := 3 } ∧
      ∀ a : Word, a ∈ readsOf (.mov 1 0) w4 → (w4.mem.writeWord 3 9).readWord a.toNat = w4.mem.readWord a.toNat := by
  refine ⟨rfl, fun a ha => ?_⟩
  rw [List.mem_singleton.mp ha]
  decide
theorem witness_WordsFrom256Up : w4.runState ≠ .idle ∧ 256 ≤ 256 := by decide

theorem inv_at_end : ({ w4 with ip := 4 } : State).Inv := by
  constructor <;> first | decide | trivial

/-- StepKeepsInv, FaultRecordIsWrittenOnce, HaltEventMarksTheEntryToHalted, EveryRunKeepsInv, IpStaysWithinEveryCapacity. -/
theorem witness_Inv :
    ({ w4 with ip := 4 } : State).Inv ∧
      step { w4 with ip := 4 } = .next (faultEntry (.addressFault 4 4) { w4 with ip := 4 }) ∧
      (faultEntry (.addressFault 4 4) { w4 with ip := 4 }).fault ≠ w4.fault ∧ (4 : Word).toNat ≤ w4.memWords :=
  ⟨inv_at_end, rfl, by decide, by decide⟩
theorem witness_ResetSatisfiesInv : Config.capacityOk 1 = true ∧ Config.capacityOk (2 ^ 32 - 1) = true := by decide
/-- `N = 255`, the edge, from the last index. -/
theorem witness_IpStaysWithinTheCapacity :
    255 ≤ (at_ 255 254 []).memWords ∧ (at_ 255 254 []).ip.toNat ≤ (at_ 255 254 []).memWords ∧
      step (at_ 255 254 []) = .next { at_ 255 254 [] with ip := 255 } := ⟨by decide, by decide, rfl⟩
theorem witness_Pop : outValid halted4 = true ∧ outValid w4 = false := by decide
theorem witness_StatusOutputs :
    w4.fault = .none ∧ ({ w4 with fault := .addressFault 4 4 } : State).fault = .addressFault 4 4 ∧
      ({ w4 with fault := .arithmeticFault 3 } : State).fault = .arithmeticFault 3 := by decide
theorem witness_PopAndStepCommute :
    popOutput halted4 = some (0x48, { halted4 with outq := [] }) ∧ step halted4 = .next halted4 := ⟨rfl, rfl⟩
theorem witness_ImageInput : ({ w4 with ip := 3 } : State).runState ≠ .idle ∧ step { w4 with ip := 3 } = .next { w4 with ip := 4 } :=
  ⟨by decide, rfl⟩
/-- An image that fills the Memory Unit exactly, and its byte 3. -/
theorem witness_Load :
    Config.capacityOk 1 = true ∧ [2, 0, 0, (0x0A : Byte)].length % 4 = 0 ∧ [2, 0, 0, (0x0A : Byte)].length / 4 ≤ 1 ∧
      [2, 0, 0, (0x0A : Byte)][4 * 0 + 3]? = some 0x0A := by decide
/-- An unreadable image; one word too many; one byte too many. -/
theorem witness_FailedLoad :
    Config.capacityOk 1 = true ∧ (State.resetWith 1).runState = .idle ∧ (State.resetWith 1).loadError = false ∧
      ({ State.resetWith 1 with image := .unreadable } : State).image = .unreadable ∧
      1 < (List.replicate 8 (0 : Byte)).length / 4 ∧ (List.replicate 5 (0 : Byte)).length % 4 ≠ 0 := by decide
theorem witness_IdleWaits :
    Config.capacityOk State.reset.memWords = true ∧ State.reset.runState = .idle ∧ State.reset.image = .absent := by decide
theorem witness_EmptyImage : Config.capacityOk 1 = true ∧ Config.capacityOk (2 ^ 32 - 1) = true := by decide

end Sys2Proof.Tests
end

section
/-! SUPPORT. The layer that proofs about every instruction go through: an instruction is its address checks, in order, before the
rest of its meaning (R266); and what each shared operation does to `ZERO` (R38). -/

namespace Sys2Proof.Machine

/-! ## An instruction is its checks and then its effect -/

/-- `CheckAddr` of each index in turn before the rest of an instruction. -/
def checkAll (addrs : List Word) (s : State) (rest : Result) : Result :=
  match addrs with
  | [] => rest
  | a :: as => checkAddr a s (checkAll as s rest)

/-- A list of checks faults at the first index outside the Memory Unit. -/
theorem checkAll_of_find?_eq_some {addrs : List Word} {s : State} {a : Word} (rest : Result)
    (h : addrs.find? (fun a => !s.inMemory a) = some a) : checkAll addrs s rest = raiseAddressFault a s := by
  induction addrs with
  | nil => cases h
  | cons x xs ih =>
    rw [checkAll, checkAddr]
    cases hx : s.inMemory x with
    | true => exact ih (by simpa [hx] using h)
    | false =>
      have hxa : x = a := by simpa [hx] using h
      simp [hxa]

/-- A list of checks with every index inside runs the rest. -/
theorem checkAll_of_find?_eq_none {addrs : List Word} {s : State} (rest : Result)
    (h : addrs.find? (fun a => !s.inMemory a) = none) : checkAll addrs s rest = rest := by
  induction addrs with
  | nil => rfl
  | cons x xs ih =>
    rw [checkAll, checkAddr]
    cases hx : s.inMemory x with
    | true => exact ih (by simpa [hx] using h)
    | false => simp [hx] at h

/-- What an instruction does once its address checks have passed. -/
def afterChecks (i : Instr) (s : State) : Result :=
  match i with
  | .mov dst src => retire s.followingIp (s.writeOperand dst (s.operand src))
  | .str dst imm => retire s.followingIp (s.writeOperand dst (immediate imm))
  | .adi dst imm => retire s.followingIp (s.writeChecked (directAddr dst) (aluAdd (s.operand dst) (immediate imm)))
  | .sui dst imm =>
    retire s.followingIp
      ((s.writeChecked (directAddr dst) (aluSub (s.operand dst) (immediate imm))).setZero
        (zeroAfterSub s.zero (aluSub (s.operand dst) (immediate imm))))
  | .jmp target => retire (jumpTarget target) s
  | .jz target => retire (if s.zero then jumpTarget target else s.followingIp) s
  | .cmp a b => retire s.followingIp (s.setZero (zeroAfterCompare (s.operand a) (s.operand b)))
  | .prn addr => retire s.followingIp (s.emit (outputByte (s.operand addr)))
  | .mul dst src => retire s.followingIp (s.writeChecked (directAddr dst) (aluMul (s.operand dst) (s.operand src)))
  | .div dst src =>
    match aluDiv (s.operand dst) (s.operand src) with
    | some q => retire s.followingIp (s.writeOperand dst q)
    | none => raiseArithmeticFault s
  | .mop dst src => retire s.followingIp (s.writeOperand dst (s.indirectOperand src))
  | .eof => retire s.followingIp s.setHalt
  | .unknown _ => retire s.followingIp s

/-- Every instruction checks the indices it references, in the order of `addressesOf`, before anything else (R261, R266). -/
theorem exec_eq_checkAll (i : Instr) (s : State) : exec i s = checkAll (addressesOf i s) s (afterChecks i s) := by
  cases i <;> rfl

theorem exec_of_firstBadAddress_eq_some {i : Instr} {s : State} {a : Word} (h : firstBadAddress i s = some a) :
    exec i s = raiseAddressFault a s := by
  rw [exec_eq_checkAll, checkAll_of_find?_eq_some _ h]

theorem exec_of_firstBadAddress_eq_none {i : Instr} {s : State} (h : firstBadAddress i s = none) :
    exec i s = afterChecks i s := by
  rw [exec_eq_checkAll, checkAll_of_find?_eq_none _ h]

/-! ## What each operation does to `ZERO` -/

@[simp] theorem State.writeChecked_zero (s : State) (a : Word) (r : Option Word) :
    (s.writeChecked a r).zero = s.zero := by
  cases r <;> rfl

theorem zero_of_retire {nextIp : Word} {s t : State} (h : retire nextIp s = .next t) : t.zero = s.zero := by
  obtain ⟨_, rfl⟩ | ⟨_, rfl⟩ := retire_cases h <;> simp

theorem zero_of_raiseAddressFault {a : Word} {s t : State} (h : raiseAddressFault a s = .next t) : t.zero = s.zero := by
  cases h
  simp

theorem zero_of_raiseArithmeticFault {s t : State} (h : raiseArithmeticFault s = .next t) : t.zero = s.zero := by
  cases h
  simp

@[simp] theorem loaderStep_zero (s : State) : (loaderStep s).zero = s.zero := by
  obtain h | ⟨_, h⟩ | ⟨image, _, _, _, h⟩ := loaderStep_cases s <;> rw [h]
  · rfl
  · rfl

theorem zeroAfterCompare_eq_decide (x y : Word) : zeroAfterCompare x y = decide (x = y) := by
  rw [Bool.eq_iff_iff, zeroAfterCompare, aluEqual_iff, decide_eq_true_iff]

/-- The difference is 0 exactly when the operands are equal; an underflow has unequal operands (R186). -/
theorem zeroAfterSub_aluSub (zero : Bool) (a b : Word) :
    zeroAfterSub zero (aluSub a b) = if a.toNat = b.toNat then true else zero := by
  cases hr : aluSub a b with
  | none =>
    have hlt := aluSub_eq_none.mp hr
    rw [if_neg (by omega), zeroAfterSub]
  | some r =>
    obtain ⟨hle, hdiff⟩ := aluSub_eq_some.mp hr
    have hr0 : r = 0 ↔ a.toNat = b.toNat := by
      simp only [← BitVec.toNat_inj, BitVec.ofNat_eq_ofNat, BitVec.toNat_zero]
      omega
    simp only [zeroAfterSub, hr0]

/-- `ZERO` after the effect of an instruction whose addresses are inside: only `cmp` and `sui` write it (R38). -/
theorem zero_of_afterChecks {i : Instr} {s t : State} (h : afterChecks i s = .next t) :
    t.zero = match i with
      | .cmp a b => decide (s.operand a = s.operand b)
      | .sui dst imm => if (s.operand dst).toNat = imm.toNat then true else s.zero
      | _ => s.zero := by
  cases i with
  | cmp a b => simpa [zeroAfterCompare_eq_decide] using zero_of_retire h
  | sui dst imm => simpa [zeroAfterSub_aluSub] using zero_of_retire h
  | div dst src =>
    rw [afterChecks] at h
    cases hq : aluDiv (s.operand dst) (s.operand src) with
    | none =>
      rw [hq] at h
      exact zero_of_raiseArithmeticFault h
    | some q =>
      rw [hq] at h
      simpa using zero_of_retire h
  | _ => simpa using zero_of_retire h

/-! ## Another `ZERO` before -/

theorem signalHalt_setZero (s : State) (b : Bool) : signalHalt (s.setZero b) = (signalHalt s).setZero b := by
  cases h : s.haltSent with
  | true => simp [signalHalt, h]
  | false =>
    simp only [signalHalt, State.setZero_haltSent, h]
    rfl

theorem faultEntry_setZero (r : FaultRecord) (s : State) (b : Bool) :
    faultEntry r (s.setZero b) = (faultEntry r s).setZero b :=
  signalHalt_setZero (((s.setFault r).setHalt).setRunState .halted) b

theorem writeChecked_setZero (s : State) (a : Word) (r : Option Word) (b : Bool) :
    (s.setZero b).writeChecked a r = (s.writeChecked a r).setZero b := by
  cases r <;> rfl

theorem retire_setZero {nextIp : Word} {s t : State} (b : Bool) (h : retire nextIp s = .next t) :
    retire nextIp (s.setZero b) = .next (t.setZero b) := by
  obtain ⟨hs, rfl⟩ | ⟨hs, rfl⟩ := retire_cases h
  · exact retire_running _ _ hs
  · rw [← signalHalt_setZero]
    exact retire_halting _ _ hs

theorem raiseAddressFault_setZero {a : Word} {s t : State} (b : Bool) (h : raiseAddressFault a s = .next t) :
    raiseAddressFault a (s.setZero b) = .next (t.setZero b) := by
  cases h
  rw [← faultEntry_setZero]
  rfl

theorem raiseArithmeticFault_setZero {s t : State} (b : Bool) (h : raiseArithmeticFault s = .next t) :
    raiseArithmeticFault (s.setZero b) = .next (t.setZero b) := by
  cases h
  rw [← faultEntry_setZero]
  rfl

theorem firstBadAddress_setZero (i : Instr) (s : State) (b : Bool) :
    firstBadAddress i (s.setZero b) = firstBadAddress i s := by
  cases i <;> rfl

/-- The effect of every instruction but `jz` with another `ZERO` before differs at most in the `ZERO` after (R38). -/
theorem afterChecks_setZero {i : Instr} {s t : State} (b : Bool) (hjz : ∀ target : Byte, i ≠ .jz target)
    (h : afterChecks i s = .next t) : ∃ c : Bool, afterChecks i (s.setZero b) = .next (t.setZero c) := by
  cases i with
  | jz target => exact absurd rfl (hjz target)
  | adi dst imm | mul dst src =>
    refine ⟨b, ?_⟩
    rw [afterChecks, writeChecked_setZero]
    exact retire_setZero b h
  | sui dst imm =>
    have hz := retire_setZero (zeroAfterSub b (aluSub (s.operand dst) (immediate imm))) h
    rw [afterChecks, writeChecked_setZero]
    exact ⟨_, hz⟩
  | cmp x y =>
    have hz := retire_setZero (zeroAfterCompare (s.operand x) (s.operand y)) h
    exact ⟨_, hz⟩
  | div dst src =>
    have hop : ∀ f : Byte, (s.setZero b).operand f = s.operand f := fun _ => rfl
    rw [afterChecks] at h
    rw [afterChecks, hop, hop]
    cases hq : aluDiv (s.operand dst) (s.operand src) with
    | none =>
      rw [hq] at h
      exact ⟨b, raiseArithmeticFault_setZero b h⟩
    | some q =>
      rw [hq] at h
      exact ⟨b, retire_setZero b h⟩
  | _ => exact ⟨b, retire_setZero b h⟩

/-- No instruction but `jz` reads `ZERO` (R38). -/
theorem exec_setZero {i : Instr} {s t : State} (b : Bool) (hjz : ∀ target : Byte, i ≠ .jz target)
    (h : exec i s = .next t) : ∃ c : Bool, exec i (s.setZero b) = .next (t.setZero c) := by
  cases hbad : firstBadAddress i s with
  | some a =>
    rw [exec_of_firstBadAddress_eq_some hbad] at h
    rw [exec_of_firstBadAddress_eq_some ((firstBadAddress_setZero i s b).trans hbad)]
    exact ⟨b, raiseAddressFault_setZero b h⟩
  | none =>
    rw [exec_of_firstBadAddress_eq_none hbad] at h
    rw [exec_of_firstBadAddress_eq_none ((firstBadAddress_setZero i s b).trans hbad)]
    exact afterChecks_setZero b hjz h

end Sys2Proof.Machine
end

section
/-! The statements about the state's elements (10_state.md). -/

namespace Sys2Proof.Machine

theorem zero_of_step_of_not_running {s t : State} (h : step s = .next t) (hrun : s.runState ≠ .running) :
    t.zero = s.zero := by
  obtain ⟨_, ⟨_, rfl⟩ | ⟨hr, _⟩ | ⟨hr, _⟩ | ⟨_, rfl⟩⟩ := step_cases h
  · exact loaderStep_zero s
  · exact absurd hr hrun
  · exact absurd hr hrun
  · rfl

/-- Settles O29: an instruction either takes the fault of its first bad address, which keeps `ZERO`, or has its effect. -/
theorem zeroIsWrittenByCmpAndSuiAndReadByJzOnly : Obligations.ZeroIsWrittenByCmpAndSuiAndReadByJzOnly := by
  refine ⟨State.resetWith_zero _, fun i s t h => ?_, fun s t => zero_of_step_of_not_running, fun i s t b hjz h => ?_⟩
  · cases hbad : firstBadAddress i s with
    | some a => exact zero_of_raiseAddressFault (exec_of_firstBadAddress_eq_some hbad ▸ h)
    | none =>
      have hzero := zero_of_afterChecks (exec_of_firstBadAddress_eq_none hbad ▸ h)
      cases i <;> exact hzero
  · obtain ⟨c, hc⟩ := exec_setZero b hjz h
    exact ⟨t.setZero c, hc, rfl⟩

/-- Settles O41: the Memory Unit is the empty list, which reads as zero words; every other element is a field. -/
theorem resetValuesAreThoseOfTheTable : Obligations.ResetValuesAreThoseOfTheTable := fun n =>
  ⟨Memory.readWord_nil, State.resetWith_ip n, State.resetWith_halt n, State.resetWith_zero n, State.resetWith_ovf n,
    State.resetWith_fault n, State.resetWith_runState n, State.resetWith_outq n, State.resetWith_haltSent n, rfl⟩

end Sys2Proof.Machine
end

section
/-! SUPPORT. What an instruction, a step and a move do to the Memory Unit (R72, R78) and to `RUNSTATE` (R36). -/

namespace Sys2Proof.Machine

/-! ## The shared operations -/

theorem mem_of_retire {nextIp : Word} {s t : State} (h : retire nextIp s = .next t) : t.mem = s.mem := by
  obtain ⟨_, rfl⟩ | ⟨_, rfl⟩ := retire_cases h <;> simp

theorem runState_of_retire {nextIp : Word} {s t : State} (h : retire nextIp s = .next t) :
    t.runState = s.runState ∨ t.runState = .halted := by
  obtain ⟨_, rfl⟩ | ⟨_, rfl⟩ := retire_cases h
  · exact .inl rfl
  · exact .inr (by simp)

@[simp] theorem State.writeChecked_runState (s : State) (a : Word) (r : Option Word) :
    (s.writeChecked a r).runState = s.runState := by
  cases r <;> rfl

theorem State.writeChecked_mem_cases (s : State) (a : Word) (r : Option Word) :
    (s.writeChecked a r).mem = s.mem ∨ ∃ v : Word, (s.writeChecked a r).mem = s.mem.writeWord a.toNat v := by
  cases r with
  | none => exact .inl rfl
  | some v => exact .inr ⟨v, rfl⟩

/-! ## One instruction -/

/-- Everything an instruction does: it takes the fault of its first bad address, or has its effect (R266). -/
theorem exec_cases {i : Instr} {s t : State} (h : exec i s = .next t) :
    (∃ a, firstBadAddress i s = some a ∧ t = faultEntry (.addressFault s.ip a) s) ∨
      (firstBadAddress i s = none ∧ afterChecks i s = .next t) := by
  cases hbad : firstBadAddress i s with
  | some a =>
    rw [exec_of_firstBadAddress_eq_some hbad] at h
    cases h
    exact .inl ⟨a, rfl, rfl⟩
  | none => exact .inr ⟨rfl, exec_of_firstBadAddress_eq_none hbad ▸ h⟩

/-- Every effect is the end of a step after updates that keep `RUNSTATE` and write at most the word of `writesOf`, but that of a
`div` with a zero divisor, which is a fault (R78, R198). -/
theorem afterChecks_cases {i : Instr} {s t : State} (h : afterChecks i s = .next t) :
    t = faultEntry (.arithmeticFault s.ip) s ∨
      ∃ (nextIp : Word) (u : State), retire nextIp u = .next t ∧ u.runState = s.runState ∧
        (u.mem = s.mem ∨ ∃ a v : Word, writesOf i = some a ∧ u.mem = s.mem.writeWord a.toNat v) := by
  cases i with
  | mov dst src | str dst imm | mop dst src => exact .inr ⟨_, _, h, rfl, .inr ⟨_, _, rfl, rfl⟩⟩
  | adi dst imm | sui dst imm | mul dst src =>
    refine .inr ⟨_, _, h, by simp, ?_⟩
    obtain hm | ⟨v, hm⟩ := State.writeChecked_mem_cases s (directAddr dst) _
    · exact .inl hm
    · exact .inr ⟨_, v, rfl, hm⟩
  | div dst src =>
    rw [afterChecks] at h
    cases hq : aluDiv (s.operand dst) (s.operand src) with
    | none =>
      rw [hq] at h
      cases h
      exact .inl rfl
    | some q =>
      rw [hq] at h
      exact .inr ⟨_, _, h, rfl, .inr ⟨_, _, rfl, rfl⟩⟩
  | jmp target | jz target | cmp x y | prn addr | eof | unknown opc => exact .inr ⟨_, _, h, rfl, .inl rfl⟩

/-- An instruction writes at most one word, the one of `writesOf` (R78). -/
theorem mem_of_exec {i : Instr} {s t : State} (h : exec i s = .next t) :
    t.mem = s.mem ∨ ∃ a v : Word, writesOf i = some a ∧ t.mem = s.mem.writeWord a.toNat v := by
  obtain ⟨a, _, rfl⟩ | ⟨_, h⟩ := exec_cases h
  · exact .inl (by simp)
  · obtain rfl | ⟨nextIp, u, hret, _, hmem⟩ := afterChecks_cases h
    · exact .inl (by simp)
    · rwa [mem_of_retire hret]

/-- An instruction keeps `RUNSTATE` or enters Halted (R36). -/
theorem runState_of_exec {i : Instr} {s t : State} (h : exec i s = .next t) :
    t.runState = s.runState ∨ t.runState = .halted := by
  obtain ⟨a, _, rfl⟩ | ⟨_, h⟩ := exec_cases h
  · exact .inr (by simp)
  · obtain rfl | ⟨nextIp, u, hret, hrun, _⟩ := afterChecks_cases h
    · exact .inr (by simp)
    · exact hrun ▸ runState_of_retire hret

/-- A destination is a direct address, an 8-bit index (R110). -/
theorem toNat_lt_256_of_writesOf {i : Instr} {a : Word} (h : writesOf i = some a) : a.toNat < 256 := by
  cases i with
  | mov dst src | str dst imm | adi dst imm | sui dst imm | mul dst src | div dst src | mop dst src =>
    cases h
    rw [directAddr_toNat]
    exact dst.isLt
  | jmp target | jz target | cmp x y | prn addr | eof | unknown opc => cases h

theorem readWord_of_exec {i : Instr} {s t : State} {j : Nat} (h : exec i s = .next t) (hj : 256 ≤ j) :
    t.mem.readWord j = s.mem.readWord j := by
  obtain hmem | ⟨a, v, ha, hmem⟩ := mem_of_exec h
  · rw [hmem]
  · have hlt := toNat_lt_256_of_writesOf ha
    rw [hmem, Memory.readWord_writeWord, if_neg (by omega)]

/-! ## One step of a core that has started -/

theorem readWord_of_step {s t : State} {j : Nat} (h : step s = .next t) (hs : s.runState ≠ .idle) (hj : 256 ≤ j) :
    t.mem.readWord j = s.mem.readWord j := by
  obtain ⟨_, ⟨hidle, _⟩ | ⟨_, _, rfl⟩ | ⟨_, w, _, hexec⟩ | ⟨_, rfl⟩⟩ := step_cases h
  · exact absurd hidle hs
  · rw [faultEntry_mem]
  · exact readWord_of_exec hexec hj
  · rfl

theorem not_idle_of_step {s t : State} (h : step s = .next t) (hs : s.runState ≠ .idle) : t.runState ≠ .idle := by
  obtain ⟨_, ⟨hidle, _⟩ | ⟨_, _, rfl⟩ | ⟨_, w, _, hexec⟩ | ⟨_, rfl⟩⟩ := step_cases h
  · exact absurd hidle hs
  · simp
  · obtain hrun | hrun := runState_of_exec hexec
    · rwa [hrun]
    · simp [hrun]
  · exact hs

/-! ## One move of the block and its host -/

/-- Everything a move does to the block: nothing, a step, a change of `OUTQ` alone, or of the image input while Idle (R252). -/
theorem World.move_core_cases (m : Move) (w : World) :
    (w.move m).core = w.core ∨ step w.core = .next (w.move m).core ∨
      (∃ q, (w.move m).core = { w.core with outq := q }) ∨
      (w.core.runState = .idle ∧ ∃ image, (w.move m).core = { w.core with image := image }) := by
  cases m with
  | block =>
    cases h : step w.core with
    | next s => exact .inr (.inl (by simp [World.move, h]))
    | fault r | refused r => exact .inl (by simp [World.move, h])
  | pop =>
    cases h : w.core.outq with
    | nil => exact .inl (by simp [World.move, popOutput, h])
    | cons c rest => exact .inr (.inr (.inl ⟨rest, by simp [World.move, popOutput, h]⟩))
  | present image =>
    by_cases h : w.core.runState = .idle ∧ w.core.image = .absent ∧ w.core.loadError = false
    · exact .inr (.inr (.inr ⟨h.1, image, by simp [World.move, presentImage, h]⟩))
    · exact .inl (by simp [World.move, presentImage, if_neg h])

theorem World.readWord_of_move (m : Move) {w : World} {j : Nat} (hw : w.core.runState ≠ .idle) (hj : 256 ≤ j) :
    (w.move m).core.mem.readWord j = w.core.mem.readWord j := by
  obtain h | h | ⟨q, h⟩ | ⟨hidle, _⟩ := w.move_core_cases m
  · rw [h]
  · exact readWord_of_step h hw hj
  · rw [h]
  · exact absurd hidle hw

theorem World.not_idle_of_move (m : Move) {w : World} (hw : w.core.runState ≠ .idle) :
    (w.move m).core.runState ≠ .idle := by
  obtain h | h | ⟨q, h⟩ | ⟨hidle, _⟩ := w.move_core_cases m
  · rwa [h]
  · exact not_idle_of_step h hw
  · rwa [h]
  · exact absurd hidle hw

end Sys2Proof.Machine
end

section
/-! The statement about the Memory Unit (20_memory.md). -/

namespace Sys2Proof.Machine

/-- Settles O37, by induction on the moves: a destination is below 256, and a core that has started is never Idle again. -/
theorem wordsFrom256UpNeverChange : Obligations.WordsFrom256UpNeverChange := by
  intro ms
  induction ms with
  | nil => exact fun w _ j _ => rfl
  | cons m rest ih =>
    intro w hw j hj
    calc (World.run rest (w.move m)).core.mem.readWord j
        = (w.move m).core.mem.readWord j := ih (w.move m) (World.not_idle_of_move m hw) j hj
      _ = w.core.mem.readWord j := World.readWord_of_move m hw hj

end Sys2Proof.Machine
end

section
/-! SUPPORT. The decoder case by case (R111, R114), and which opcodes are unknown (R112). -/

namespace Sys2Proof

/-! ## The decoder on four bytes -/

/-- The decoder reads each field of a word from its own byte (R101, R114). -/
theorem decode_wordOfBytes (opc op1 hi lo : Byte) :
    decode (wordOfBytes opc op1 hi lo) =
      if opc = Opcode.mov then .mov op1 lo
      else if opc = Opcode.str then .str op1 (hi ++ lo)
      else if opc = Opcode.adi then .adi op1 (hi ++ lo)
      else if opc = Opcode.sui then .sui op1 (hi ++ lo)
      else if opc = Opcode.jmp then .jmp op1
      else if opc = Opcode.jz then .jz op1
      else if opc = Opcode.cmp then .cmp op1 hi
      else if opc = Opcode.prn then .prn op1
      else if opc = Opcode.mul then .mul op1 lo
      else if opc = Opcode.div then .div op1 lo
      else if opc = Opcode.mop then .mop op1 lo
      else if opc = Opcode.eof then .eof
      else .unknown opc := by
  rw [decode, opcodeField_wordOfBytes, op1Field_wordOfBytes, op2HiField_wordOfBytes, op2LoField_wordOfBytes,
    imm16Field_wordOfBytes]

section
variable (op1 hi lo : Byte)

@[simp] theorem decode_mov : decode (wordOfBytes Opcode.mov op1 hi lo) = .mov op1 lo := decode_wordOfBytes ..
@[simp] theorem decode_str : decode (wordOfBytes Opcode.str op1 hi lo) = .str op1 (hi ++ lo) := decode_wordOfBytes ..
@[simp] theorem decode_adi : decode (wordOfBytes Opcode.adi op1 hi lo) = .adi op1 (hi ++ lo) := decode_wordOfBytes ..
@[simp] theorem decode_sui : decode (wordOfBytes Opcode.sui op1 hi lo) = .sui op1 (hi ++ lo) := decode_wordOfBytes ..
@[simp] theorem decode_jmp : decode (wordOfBytes Opcode.jmp op1 hi lo) = .jmp op1 := decode_wordOfBytes ..
@[simp] theorem decode_jz : decode (wordOfBytes Opcode.jz op1 hi lo) = .jz op1 := decode_wordOfBytes ..
@[simp] theorem decode_cmp : decode (wordOfBytes Opcode.cmp op1 hi lo) = .cmp op1 hi := decode_wordOfBytes ..
@[simp] theorem decode_prn : decode (wordOfBytes Opcode.prn op1 hi lo) = .prn op1 := decode_wordOfBytes ..
@[simp] theorem decode_mul : decode (wordOfBytes Opcode.mul op1 hi lo) = .mul op1 lo := decode_wordOfBytes ..
@[simp] theorem decode_div : decode (wordOfBytes Opcode.div op1 hi lo) = .div op1 lo := decode_wordOfBytes ..
@[simp] theorem decode_mop : decode (wordOfBytes Opcode.mop op1 hi lo) = .mop op1 lo := decode_wordOfBytes ..
@[simp] theorem decode_eof : decode (wordOfBytes Opcode.eof op1 hi lo) = .eof := decode_wordOfBytes ..

end

/-! ## The unknown opcodes -/

/-- An opcode is unknown exactly when it is none of the twelve of R111. -/
theorem knownOpcode_eq_false_iff_not_mem {opc : Byte} : knownOpcode opc = false ↔ opc ∉ knownOpcodes := by
  rw [← Bool.not_eq_true, knownOpcode, List.contains_iff_mem]

/-- The known opcodes are the range from `mov` to `mop`, and `eof` (R111). -/
theorem mem_knownOpcodes_iff_toNat {opc : Byte} :
    opc ∈ knownOpcodes ↔ (1 ≤ opc.toNat ∧ opc.toNat ≤ 0x0B) ∨ opc.toNat = 0xFF := by
  simp only [knownOpcodes, List.mem_cons, List.not_mem_nil, or_false, Opcode.mov, Opcode.str, Opcode.adi, Opcode.sui,
    Opcode.jmp, Opcode.jz, Opcode.cmp, Opcode.prn, Opcode.mul, Opcode.div, Opcode.mop, Opcode.eof, ← BitVec.toNat_inj,
    BitVec.ofNat_eq_ofNat, BitVec.toNat_ofNat, Nat.reducePow, Nat.reduceMod]
  omega

/-- What is left of the bytes is 0 and the range between `mop` and `eof` (R112). -/
theorem knownOpcode_eq_false_iff_toNat {opc : Byte} :
    knownOpcode opc = false ↔ opc.toNat = 0 ∨ (0x0C ≤ opc.toNat ∧ opc.toNat ≤ 0xFE) := by
  rw [knownOpcode_eq_false_iff_not_mem, mem_knownOpcodes_iff_toNat]
  have hlt : opc.toNat < 256 := opc.isLt
  omega

theorem decode_unknown {opc : Byte} (h : knownOpcode opc = false) (op1 hi lo : Byte) :
    decode (wordOfBytes opc op1 hi lo) = .unknown opc := by
  have hne : ∀ o ∈ knownOpcodes, opc ≠ o := fun o ho he => knownOpcode_eq_false_iff_not_mem.mp h (he ▸ ho)
  simp only [knownOpcodes, List.forall_mem_cons] at hne
  simp only [decode_wordOfBytes, hne, if_false]

theorem decode_of_knownOpcode_eq_false {w : Word} (h : knownOpcode (opcodeField w) = false) :
    decode w = .unknown (opcodeField w) := by
  conv_lhs => rw [← wordOfBytes_fields w]
  exact decode_unknown h _ _ _

end Sys2Proof

namespace Sys2Proof.Machine

/-- An unknown opcode is a no-op (R146). -/
theorem exec_unknown_running (opc : Byte) {s : State} (h : s.halt = false) :
    exec (.unknown opc) s = .next (s.setIp s.followingIp) :=
  retire_running _ s h

end Sys2Proof.Machine
end

section
/-! The statements about the encoding (30_encoding.md): what the decoder reads, and the unknown opcodes. -/

namespace Sys2Proof.Machine

/-- Settles O2: a word is its four fields, and each known opcode selects its own case of the decoder; the opcodes 0 and
`0x0C` to `0xFE` are the unknown ones. -/
theorem decoderReadsEveryWord : Obligations.DecoderReadsEveryWord := by
  refine ⟨fun w => ⟨_, _, _, _, (wordOfBytes_fields w).symm⟩, fun opc op1 hi lo =>
    ⟨decode_mov op1 hi lo, decode_str op1 hi lo, decode_adi op1 hi lo, decode_sui op1 hi lo, decode_jmp op1 hi lo,
      decode_jz op1 hi lo, decode_cmp op1 hi lo, decode_prn op1 hi lo, decode_mul op1 hi lo, decode_div op1 hi lo,
      decode_mop op1 hi lo, decode_eof op1 hi lo, fun hopc => ?_⟩⟩
  have hunknown : opc.toNat = 0 ∨ (0x0C ≤ opc.toNat ∧ opc.toNat ≤ 0xFE) := hopc.imp_left (congrArg BitVec.toNat)
  exact decode_unknown (knownOpcode_eq_false_iff_toNat.mpr hunknown) op1 hi lo

/-- Settles O22: an unknown opcode only retires to `ip + 1`, and the zero word's opcode 0 is one of them. -/
theorem unknownOpcodesOnlyAdvanceIp : Obligations.UnknownOpcodesOnlyAdvanceIp := by
  refine ⟨fun opc => knownOpcode_eq_false_iff_toNat, fun w => decode_of_knownOpcode_eq_false,
    fun opc s => exec_unknown_running opc, fun s hs => ?_⟩
  have hopc : knownOpcode (opcodeField 0) = false := by decide
  rw [decode_of_knownOpcode_eq_false hopc]
  exact exec_unknown_running _ hs

end Sys2Proof.Machine
end

section
/-! SUPPORT. A step of a Running engine is its fetch and what follows from it (R141, R145). -/

namespace Sys2Proof.Machine

section
variable {s : State}

theorem step_of_running (hc : Config.capacityOk s.memWords = true) (hr : s.runState = .running) :
    step s = engineStep s := by
  rw [step, if_pos hc, hr]

theorem engineStep_of_fetch_eq_none (h : fetch s = none) :
    engineStep s = .next (faultEntry (.addressFault s.ip s.ip) s) := by
  rw [engineStep, h, raiseAddressFault]

end

end Sys2Proof.Machine
end

section
/-! The statement about the fetch (40_engine_cycle.md). -/

namespace Sys2Proof.Machine

/-- Settles O24: the fetch finds nothing exactly at `ip >= N`, and a step without a fetched word raises the fault at `ip`. -/
theorem fetchOutsideMemoryFaults : Obligations.FetchOutsideMemoryFaults := by
  refine fun s hc hr => ⟨fun hout => ?_, fun hin => fetch_eq_some.mpr ⟨hin, rfl⟩⟩
  calc step s = engineStep s := step_of_running hc hr
    _ = .next (faultEntry (.addressFault s.ip s.ip) s) := engineStep_of_fetch_eq_none (fetch_eq_none.mpr hout)

end Sys2Proof.Machine
end

section
/-! SUPPORT. What an instruction that stores a word goes through: its word split into bytes (R101), the checks of its address
fields (R266), its operands, and the store it retires with (R85, R143). -/

namespace Sys2Proof

/-- The layout of format AI is a word of four bytes, the immediate's two halves last (R101). -/
theorem append_imm16_eq_wordOfBytes (opc op1 : Byte) (imm : Imm16) :
    opc ++ op1 ++ imm = wordOfBytes opc op1 (imm.extractLsb' 8 8) (imm.extractLsb' 0 8) := by
  conv_lhs => rw [← imm16_halves imm]
  rw [wordOfBytes, BitVec.append_assoc (x₁ := opc ++ op1), BitVec.cast_eq]

theorem decode_str_imm16 (op1 : Byte) (imm : Imm16) : decode (Opcode.str ++ op1 ++ imm) = .str op1 imm := by
  rw [append_imm16_eq_wordOfBytes, decode_str, imm16_halves]

end Sys2Proof

namespace Sys2Proof.Machine

section
variable {f g : Byte} {s : State}

/-! ## The checks of the address fields -/

theorem checkField_inside (rest : Result) (h : f.toNat < s.memWords) : checkField f s rest = rest :=
  checkAddr_inside _ s rest (by rwa [directAddr_toNat])

theorem checkField_outside (rest : Result) (h : s.memWords ≤ f.toNat) :
    checkField f s rest = .next (faultEntry (.addressFault s.ip (directAddr f)) s) :=
  checkAddr_outside _ s rest (by rwa [directAddr_toNat])

theorem checkFields_inside (rest : Result) (hf : f.toNat < s.memWords) (hg : g.toNat < s.memWords) :
    checkFields f g s rest = rest := by
  rw [checkFields, checkField_inside _ hf, checkField_inside _ hg]

theorem checkFields_first_outside (rest : Result) (hf : s.memWords ≤ f.toNat) :
    checkFields f g s rest = .next (faultEntry (.addressFault s.ip (directAddr f)) s) :=
  checkField_outside _ hf

theorem checkFields_second_outside (rest : Result) (hf : f.toNat < s.memWords) (hg : s.memWords ≤ g.toNat) :
    checkFields f g s rest = .next (faultEntry (.addressFault s.ip (directAddr g)) s) := by
  rw [checkFields, checkField_inside _ hf, checkField_outside _ hg]

end

/-! ## The operands -/

theorem State.operand_eq (s : State) (f : Byte) : s.operand f = s.mem.readWord f.toNat := by
  rw [State.operand, State.memRead, directAddr_toNat]

/-- The pointer is the whole word, and its target is any index (R163). -/
theorem State.indirectOperand_eq (s : State) (f : Byte) :
    s.indirectOperand f = s.mem.readWord (s.mem.readWord f.toNat).toNat := by
  rw [State.indirectOperand, State.operand_eq, State.memRead]

/-! ## The store -/

theorem sameOutsideWord_writeWord (m : Memory) (a v : Word) : SameOutsideWord m (m.writeWord a.toNat v) a :=
  fun b hb => m.readByte_writeWord_outside b a.toNat v hb

/-- Storing a word and going on to the next instruction changes that word and `ip`, and nothing else. -/
theorem retire_writeOperand (f : Byte) (v : Word) {s : State} (h : s.halt = false) :
    ∃ m : Memory, retire s.followingIp (s.writeOperand f v) = .next { s with mem := m, ip := s.ip + 1 } ∧
      m.readWord f.toNat = v ∧ SameOutsideWord s.mem m (directAddr f) := by
  refine ⟨s.mem.writeWord (directAddr f).toNat v, retire_running _ _ h, ?_, sameOutsideWord_writeWord _ _ _⟩
  rw [directAddr_toNat, Memory.readWord_writeWord, if_pos rfl]

/-! ## The meanings of `mov`, `mop` and `str` -/

theorem exec_mov (dst src : Byte) (s : State) :
    exec (.mov dst src) s = checkFields dst src s (retire s.followingIp (s.writeOperand dst (s.mem.readWord src.toNat))) := by
  rw [← State.operand_eq]
  rfl

theorem exec_mop (dst src : Byte) (s : State) :
    exec (.mop dst src) s =
      checkFields dst src s
        (checkAddr (s.mem.readWord src.toNat) s
          (retire s.followingIp (s.writeOperand dst (s.mem.readWord (s.mem.readWord src.toNat).toNat)))) := by
  rw [← State.indirectOperand_eq, ← State.operand_eq]
  rfl

theorem exec_str (dst : Byte) (imm : Imm16) (s : State) :
    exec (.str dst imm) s = checkField dst s (retire s.followingIp (s.writeOperand dst (immediate imm))) := rfl

end Sys2Proof.Machine
end

section
/-! The statements about data movement (41_data_movement.md). -/

namespace Sys2Proof.Machine

/-- Settles O10: with both fields inside, `mov` is the store of the source word; otherwise the first field outside faults. -/
theorem movCopiesTheSourceWord : Obligations.MovCopiesTheSourceWord := by
  intro dst src s
  rw [exec_mov]
  refine ⟨fun ign => decode_mov dst ign src, fun hhalt hdst hsrc => ?_, checkFields_first_outside _,
    checkFields_second_outside _⟩
  rw [checkFields_inside _ hdst hsrc]
  exact retire_writeOperand dst _ hhalt

/-- Settles O11: as for `mov`, with the check of the pointer word after both fields and before the store. -/
theorem mopCopiesTheWordThePointerNames : Obligations.MopCopiesTheWordThePointerNames := by
  intro dst src s
  rw [exec_mop]
  refine ⟨fun ign => decode_mop dst ign src, fun hhalt hdst hsrc hptr => ?_, checkFields_first_outside _,
    checkFields_second_outside _, fun hdst hsrc hptr => ?_⟩
  · rw [checkFields_inside _ hdst hsrc, checkAddr_inside _ _ _ hptr]
    exact retire_writeOperand dst _ hhalt
  · rw [checkFields_inside _ hdst hsrc]
    exact checkAddr_outside _ _ _ hptr

/-- Settles O12: with its field inside, `str` is the store of the zero-extended immediate; otherwise the field faults. -/
theorem strStoresTheImmediate : Obligations.StrStoresTheImmediate := by
  intro dst imm s
  rw [exec_str]
  refine ⟨decode_str_imm16 dst imm, fun hhalt hdst => ?_, checkField_outside _⟩
  obtain ⟨m, hexec, hword, hrest⟩ := retire_writeOperand dst (immediate imm) hhalt
  refine ⟨m, ?_, by rw [hword, immediate_toNat], hrest⟩
  rw [checkField_inside _ hdst, hexec]

end Sys2Proof.Machine
end

section
/-! SUPPORT. What an arithmetic instruction goes through: the exact result as a word or an overflow (R204), the checked write it
retires with (R39, R204), and its meaning in terms of the words it reads. -/

namespace Sys2Proof

theorem decode_adi_imm16 (op1 : Byte) (imm : Imm16) : decode (Opcode.adi ++ op1 ++ imm) = .adi op1 imm := by
  rw [append_imm16_eq_wordOfBytes, decode_adi, imm16_halves]

theorem decode_sui_imm16 (op1 : Byte) (imm : Imm16) : decode (Opcode.sui ++ op1 ++ imm) = .sui op1 imm := by
  rw [append_imm16_eq_wordOfBytes, decode_sui, imm16_halves]

end Sys2Proof

namespace Sys2Proof.Machine

/-! ## Exact results -/

theorem exists_narrow_of_lt {n : Nat} (h : n < 2 ^ 32) : ∃ r : Word, narrow n = some r ∧ r.toNat = n := by
  have hnarrow : narrow n = some (BitVec.ofNat 32 n) := if_pos (Nat.le_pred_of_lt h)
  exact ⟨_, hnarrow, (narrow_eq_some.mp hnarrow).2⟩

theorem narrow_of_le {n : Nat} (h : 2 ^ 32 ≤ n) : narrow n = none :=
  narrow_eq_none.mpr (Nat.lt_of_lt_of_le (by decide) h)

theorem exists_aluSub_of_le {a b : Word} (h : b.toNat ≤ a.toNat) :
    ∃ r : Word, aluSub a b = some r ∧ r.toNat = a.toNat - b.toNat := by
  obtain ⟨r, hr⟩ := Option.ne_none_iff_exists'.mp (mt aluSub_eq_none.mp (Nat.not_lt.mpr h))
  exact ⟨r, hr, (aluSub_eq_some.mp hr).2⟩

theorem exists_aluDiv_of_ne_zero {a b : Word} (h : b ≠ 0) :
    ∃ q : Word, aluDiv a b = some q ∧ q.toNat = a.toNat / b.toNat := by
  obtain ⟨q, hq⟩ := Option.ne_none_iff_exists'.mp fun hnone => h (BitVec.eq_of_toNat_eq (aluDiv_eq_none.mp hnone))
  exact ⟨q, hq, (aluDiv_eq_some.mp hq).2⟩

theorem aluDiv_zero (a : Word) : aluDiv a 0 = none := aluDiv_eq_none.mpr rfl

/-! ## The checked write -/

section
variable {s : State} {result : Option Word} {n : Nat} (f : Byte)

/-- A result that is a word is stored and `OVF` is cleared (R204), whatever the instruction makes of `ZERO`. -/
theorem retire_setZero_writeChecked_word (zero : Bool) (h : s.halt = false)
    (hresult : ∃ r : Word, result = some r ∧ r.toNat = n) :
    ∃ m : Memory,
      retire s.followingIp ((s.writeChecked (directAddr f) result).setZero zero) =
        .next { s with mem := m, ip := s.ip + 1, ovf := false, zero := zero } ∧
      (m.readWord f.toNat).toNat = n ∧ SameOutsideWord s.mem m (directAddr f) := by
  obtain ⟨r, rfl, hr⟩ := hresult
  refine ⟨s.mem.writeWord (directAddr f).toNat r, retire_running _ _ h, ?_, sameOutsideWord_writeWord _ _ _⟩
  rw [directAddr_toNat, Memory.readWord_writeWord, if_pos rfl, hr]

/-- An instruction that does not write `ZERO` is one that writes back the `ZERO` it found. -/
theorem retire_writeChecked_word (h : s.halt = false) (hresult : ∃ r : Word, result = some r ∧ r.toNat = n) :
    ∃ m : Memory,
      retire s.followingIp (s.writeChecked (directAddr f) result) =
        .next { s with mem := m, ip := s.ip + 1, ovf := false } ∧
      (m.readWord f.toNat).toNat = n ∧ SameOutsideWord s.mem m (directAddr f) := by
  have hzero : s.writeChecked (directAddr f) result = (s.writeChecked (directAddr f) result).setZero s.zero :=
    writeChecked_setZero s (directAddr f) result s.zero
  rw [hzero]
  exact retire_setZero_writeChecked_word f s.zero h hresult

/-- A result that is no word leaves memory as it is and sets `OVF` (R204). -/
theorem retire_writeChecked_none (h : s.halt = false) :
    retire s.followingIp (s.writeChecked (directAddr f) none) = .next { s with ip := s.ip + 1, ovf := true } :=
  retire_running _ _ h

end

/-! ## The meanings of `adi`, `sui`, `mul` and `div` -/

theorem exec_adi (dst : Byte) (imm : Imm16) (s : State) :
    exec (.adi dst imm) s =
      checkField dst s
        (retire s.followingIp
          (s.writeChecked (directAddr dst) (narrow ((s.mem.readWord dst.toNat).toNat + imm.toNat)))) := by
  rw [← State.operand_eq, ← immediate_toNat]
  rfl

theorem exec_sui (dst : Byte) (imm : Imm16) (s : State) :
    exec (.sui dst imm) s =
      checkField dst s
        (retire s.followingIp
          ((s.writeChecked (directAddr dst) (aluSub (s.mem.readWord dst.toNat) (immediate imm))).setZero
            (if (s.mem.readWord dst.toNat).toNat = (immediate imm).toNat then true else s.zero))) := by
  rw [← zeroAfterSub_aluSub, ← State.operand_eq]
  rfl

theorem exec_mul (dst src : Byte) (s : State) :
    exec (.mul dst src) s =
      checkFields dst src s
        (retire s.followingIp
          (s.writeChecked (directAddr dst)
            (narrow ((s.mem.readWord dst.toNat).toNat * (s.mem.readWord src.toNat).toNat)))) := by
  rw [← State.operand_eq, ← State.operand_eq]
  rfl

theorem exec_div (dst src : Byte) (s : State) :
    exec (.div dst src) s = checkFields dst src s (afterChecks (.div dst src) s) := rfl

theorem afterChecks_div_of_eq_some {dst src : Byte} {s : State} {q : Word}
    (hq : aluDiv (s.mem.readWord dst.toNat) (s.mem.readWord src.toNat) = some q) :
    afterChecks (.div dst src) s = retire s.followingIp (s.writeOperand dst q) := by
  rw [← State.operand_eq, ← State.operand_eq] at hq
  rw [afterChecks, hq]

theorem afterChecks_div_of_eq_none {dst src : Byte} {s : State}
    (hq : aluDiv (s.mem.readWord dst.toNat) (s.mem.readWord src.toNat) = none) :
    afterChecks (.div dst src) s = .next (faultEntry (.arithmeticFault s.ip) s) := by
  rw [← State.operand_eq, ← State.operand_eq] at hq
  rw [afterChecks, hq, raiseArithmeticFault]

end Sys2Proof.Machine
end

section
/-! The statements about arithmetic (42_arithmetic.md). -/

namespace Sys2Proof.Machine

/-- Settles O13: with its field inside, `adi` is the checked write of the exact sum; otherwise the field faults. -/
theorem adiAddsOrSetsOverflow : Obligations.AdiAddsOrSetsOverflow := by
  intro dst imm s
  rw [exec_adi]
  refine ⟨decode_adi_imm16 dst imm, fun hhalt hdst hsum => ?_, fun hhalt hdst hsum => ?_, checkField_outside _⟩
  · rw [checkField_inside _ hdst]
    exact retire_writeChecked_word dst hhalt (exists_narrow_of_lt hsum)
  · rw [checkField_inside _ hdst, narrow_of_le hsum]
    exact retire_writeChecked_none dst hhalt

/-- Settles O14: as for `adi`, with the difference; an underflow has unequal operands, so it keeps `ZERO`. -/
theorem suiSubtractsOrSetsOverflow : Obligations.SuiSubtractsOrSetsOverflow := by
  intro dst imm s
  rw [exec_sui, ← immediate_toNat imm]
  refine ⟨decode_sui_imm16 dst imm, fun hhalt hdst hle => ?_, fun hhalt hdst hlt => ?_, checkField_outside _⟩
  · rw [checkField_inside _ hdst]
    exact retire_setZero_writeChecked_word dst _ hhalt (exists_aluSub_of_le hle)
  · rw [checkField_inside _ hdst, aluSub_eq_none.mpr hlt, if_neg hlt.ne]
    exact retire_writeChecked_none dst hhalt

/-- Settles O15: with both fields inside, `mul` is the checked write of the exact product; otherwise the first field outside
faults. -/
theorem mulMultipliesOrSetsOverflow : Obligations.MulMultipliesOrSetsOverflow := by
  intro dst src s
  rw [exec_mul]
  refine ⟨fun ign => decode_mul dst ign src, fun hhalt hdst hsrc hprod => ?_, fun hhalt hdst hsrc hprod => ?_,
    checkFields_first_outside _, checkFields_second_outside _⟩
  · rw [checkFields_inside _ hdst hsrc]
    exact retire_writeChecked_word dst hhalt (exists_narrow_of_lt hprod)
  · rw [checkFields_inside _ hdst hsrc, narrow_of_le hprod]
    exact retire_writeChecked_none dst hhalt

/-- Settles O16: with both fields inside, `div` is the store of the quotient, or the fault of a divisor that is 0; otherwise the
first field outside faults. -/
theorem divDividesOrFaultsOnZero : Obligations.DivDividesOrFaultsOnZero := by
  intro dst src s
  rw [exec_div]
  refine ⟨fun ign => decode_div dst ign src, fun hhalt hdst hsrc hne => ?_, fun hdst hsrc hzero => ?_,
    checkFields_first_outside _, checkFields_second_outside _⟩
  · obtain ⟨q, hq, hquot⟩ := exists_aluDiv_of_ne_zero (a := s.mem.readWord dst.toNat) hne
    obtain ⟨m, hexec, hword, hrest⟩ := retire_writeOperand dst q hhalt
    refine ⟨m, ?_, by rw [hword, hquot], hrest⟩
    rw [checkFields_inside _ hdst hsrc, afterChecks_div_of_eq_some hq, hexec]
  · rw [checkFields_inside _ hdst hsrc]
    exact afterChecks_div_of_eq_none (by rw [hzero, aluDiv_zero])

end Sys2Proof.Machine
end

section
/-! SUPPORT. What a compare and a jump go through: their meanings in terms of the words and the flag they read, and the fetch that
follows a jump (R141, R143). -/

namespace Sys2Proof.Machine

/-! ## The meanings of `cmp`, `jmp` and `jz` -/

theorem exec_cmp (a b : Byte) (s : State) :
    exec (.cmp a b) s =
      checkFields a b s
        (retire s.followingIp (s.setZero (decide (s.mem.readWord a.toNat = s.mem.readWord b.toNat)))) := by
  rw [← zeroAfterCompare_eq_decide, ← State.operand_eq, ← State.operand_eq]
  rfl

theorem exec_jmp (target : Byte) (s : State) : exec (.jmp target) s = retire (jumpTarget target) s := rfl

theorem exec_jz (target : Byte) (s : State) :
    exec (.jz target) s = retire (if s.zero = true then jumpTarget target else s.followingIp) s := rfl

theorem exec_jz_of_zero (target : Byte) {s : State} (h : s.zero = true) : exec (.jz target) s = exec (.jmp target) s := by
  rw [exec_jz, if_pos h, exec_jmp]

theorem exec_jz_of_not_zero (target : Byte) {s : State} (h : s.zero = false) :
    exec (.jz target) s = retire s.followingIp s := by
  rw [exec_jz, if_neg (Bool.eq_false_iff.mp h)]

/-! ## A jump and the fetch after it -/

section
variable (target : Byte) {s : State}

/-- The target is not checked when the jump executes (R213). -/
theorem exec_jmp_running (h : s.halt = false) : exec (.jmp target) s = .next (s.setIp (jumpTarget target)) := by
  rw [exec_jmp, retire_running _ _ h]

/-- Where a jump has led outside the Memory Unit, the fetch faults, with the target as both `ip` and index (R141, R213). -/
theorem step_setIp_jumpTarget_outside (hc : Config.capacityOk s.memWords = true) (hr : s.runState = .running)
    (hout : s.memWords ≤ target.toNat) :
    step (s.setIp (jumpTarget target)) =
      .next (faultEntry (.addressFault (jumpTarget target) (jumpTarget target)) (s.setIp (jumpTarget target))) := by
  have hip : (s.setIp (jumpTarget target)).memWords ≤ (s.setIp (jumpTarget target)).ip.toNat := by
    simpa using hout
  obtain ⟨hfault, _⟩ := fetchOutsideMemoryFaults (s.setIp (jumpTarget target)) hc hr
  exact hfault hip

end

end Sys2Proof.Machine
end

section
/-! The statements about compare and control transfer (43_compare_control.md). -/

namespace Sys2Proof.Machine

/-- Settles O17: with both fields inside, `cmp` retires with `ZERO` assigned; otherwise the first field outside faults. -/
theorem cmpAssignsZero : Obligations.CmpAssignsZero := by
  intro a b s
  rw [exec_cmp]
  refine ⟨decode_cmp a b, fun hhalt ha hb => ?_, checkFields_first_outside _, checkFields_second_outside _⟩
  rw [checkFields_inside _ ha hb]
  exact retire_running _ _ hhalt

/-- Settles O18: the jump itself has no check; a target outside is the `ip` at which the next fetch faults. -/
theorem jmpSetsIpAndTheNextFetchChecksIt : Obligations.JmpSetsIpAndTheNextFetchChecksIt := fun target _ =>
  ⟨decode_jmp target, exec_jmp_running target, step_setIp_jumpTarget_outside target⟩

/-- Settles O19: with `ZERO` set `jz` is `jmp`, and with `ZERO` clear it only goes on to the next word. -/
theorem jzJumpsExactlyWhenZeroIsSet : Obligations.JzJumpsExactlyWhenZeroIsSet := by
  refine fun target s => ⟨decode_jz target, fun hhalt hzero => ?_, fun hhalt hzero => ?_,
    step_setIp_jumpTarget_outside target⟩
  · rw [exec_jz_of_zero target hzero]
    exact exec_jmp_running target hhalt
  · rw [exec_jz_of_not_zero target hzero]
    exact retire_running _ _ hhalt

end Sys2Proof.Machine
end

section
/-! SUPPORT. What an instruction, a step and a move append to `OUTQ` (R230, R236), the meanings of `prn` and `eof`, and the bytes
that leave the block (R238, R240). -/

namespace Sys2Proof.Machine

/-! ## The meanings of `prn` and `eof` -/

theorem exec_prn (addr : Byte) (s : State) :
    exec (.prn addr) s =
      checkField addr s (retire s.followingIp (s.emit ((s.mem.readWord addr.toNat).extractLsb' 0 8))) := by
  rw [← State.operand_eq]
  rfl

/-- `eof` always ends in the halt check, and never reaches the advance of `ip` (R144, R232). -/
theorem exec_eof (s : State) : exec .eof s = .next (signalHalt (s.setHalt.setRunState .halted)) :=
  retire_halting s.followingIp s.setHalt rfl

/-- The first time it is performed, `SignalHalt` presents the event (R244). -/
theorem signalHalt_of_not_sent {s : State} (h : s.haltSent = false) :
    signalHalt s = { s with haltSent := true, haltEvents := s.haltEvents + 1 } := by
  rw [signalHalt, if_neg (Bool.eq_false_iff.mp h)]

/-! ## `OUTQ` and the shared operations -/

@[simp] theorem State.writeChecked_outq (s : State) (a : Word) (r : Option Word) :
    (s.writeChecked a r).outq = s.outq := by
  cases r <;> rfl

@[simp] theorem loaderStep_outq (s : State) : (loaderStep s).outq = s.outq := by
  obtain h | ⟨_, h⟩ | ⟨image, _, _, _, h⟩ := loaderStep_cases s <;> rw [h]
  · rfl
  · rfl

theorem exists_retire_outq {s : State} {q : List Byte} (nextIp : Word) (h : s.outq = q) :
    ∃ t, retire nextIp s = .next t ∧ t.outq = q := by
  cases hhalt : s.halt with
  | false => exact ⟨_, retire_running nextIp s hhalt, h⟩
  | true => exact ⟨_, retire_halting nextIp s hhalt, by simpa using h⟩

/-! ## What one instruction prints -/

theorem printedBy_prn_inside {addr : Byte} {s : State} (h : addr.toNat < s.memWords) :
    printedBy (.prn addr) s = [outputByte (s.operand addr)] := by
  rw [printedBy, if_pos h, State.operand_eq, outputByte]

theorem printedBy_prn_outside {addr : Byte} {s : State} (h : s.memWords ≤ addr.toNat) : printedBy (.prn addr) s = [] := by
  rw [printedBy, if_neg (Nat.not_lt.mpr h)]

theorem firstBadAddress_prn_eq_none {addr : Byte} {s : State} :
    firstBadAddress (.prn addr) s = none ↔ addr.toNat < s.memWords := by
  simp [firstBadAddress, addressesOf, State.inMemory_iff]

/-- An instruction that takes an address fault prints nothing (R230, R266). -/
theorem printedBy_of_firstBadAddress_eq_some {i : Instr} {s : State} {a : Word} (h : firstBadAddress i s = some a) :
    printedBy i s = [] := by
  cases i with
  | prn addr =>
    have hout : ¬ addr.toNat < s.memWords := mt firstBadAddress_prn_eq_none.mpr (by simp [h])
    exact printedBy_prn_outside (Nat.not_lt.mp hout)
  | _ => rfl

/-- With its addresses inside, `prn` appends its one byte, and every other instruction keeps `OUTQ` (R236). -/
theorem exists_afterChecks_outq {i : Instr} {s : State} (h : firstBadAddress i s = none) :
    ∃ t, afterChecks i s = .next t ∧ t.outq = s.outq ++ printedBy i s := by
  cases i with
  | prn addr =>
    rw [printedBy_prn_inside (firstBadAddress_prn_eq_none.mp h)]
    exact exists_retire_outq _ (s.emit_outq _)
  | div dst src =>
    rw [afterChecks, printedBy, List.append_nil]
    cases aluDiv (s.operand dst) (s.operand src) with
    | none => exact ⟨_, rfl, faultEntry_outq s _⟩
    | some q => exact exists_retire_outq _ (s.writeOperand_outq dst q)
  | _ =>
    rw [printedBy, List.append_nil]
    exact exists_retire_outq _ (by simp)

/-- Every instruction answers a next state, in which `OUTQ` has what the instruction prints at its tail (R230, R236). -/
theorem exists_exec_outq (i : Instr) (s : State) :
    ∃ t, exec i s = .next t ∧ t.outq = s.outq ++ printedBy i s := by
  cases hbad : firstBadAddress i s with
  | some a =>
    rw [exec_of_firstBadAddress_eq_some hbad, printedBy_of_firstBadAddress_eq_some hbad, List.append_nil]
    exact ⟨_, rfl, faultEntry_outq s _⟩
  | none =>
    rw [exec_of_firstBadAddress_eq_none hbad]
    exact exists_afterChecks_outq hbad

/-! ## What one step prints -/

section
variable {s : State}

theorem step_of_idle (hc : Config.capacityOk s.memWords = true) (hr : s.runState = .idle) :
    step s = .next (loaderStep s) := by
  rw [step, if_pos hc, hr]

theorem step_of_halted (hc : Config.capacityOk s.memWords = true) (hr : s.runState = .halted) : step s = .next s := by
  rw [step, if_pos hc, hr]

theorem step_of_not_capacityOk (hc : Config.capacityOk s.memWords ≠ true) : step s = .refused .capacityOutOfRange :=
  if_neg hc

theorem engineStep_of_fetch_eq_some {w : Word} (h : fetch s = some w) : engineStep s = exec (decode w) s := by
  rw [engineStep, h]

/-- A step that is none of the engine's prints nothing. -/
theorem printedByStep_of_not_engine (h : ¬ (Config.capacityOk s.memWords = true ∧ s.runState = .running)) :
    printedByStep s = [] := by
  rw [printedByStep, runningInstr, if_neg h]

theorem printedByStep_of_fetch_eq_none (h : fetch s = none) : printedByStep s = [] := by
  simp [printedByStep, runningInstr, h]

theorem printedByStep_of_fetch_eq_some {w : Word} (hc : Config.capacityOk s.memWords = true) (hr : s.runState = .running)
    (h : fetch s = some w) : printedByStep s = printedBy (decode w) s := by
  rw [printedByStep, runningInstr, if_pos ⟨hc, hr⟩, h, Option.map_some]

theorem exists_step_outq (hc : Config.capacityOk s.memWords = true) :
    ∃ t, step s = .next t ∧ t.outq = s.outq ++ printedByStep s := by
  cases hr : s.runState with
  | idle =>
    rw [printedByStep_of_not_engine (by simp [hr]), List.append_nil]
    exact ⟨_, step_of_idle hc hr, loaderStep_outq s⟩
  | halted =>
    rw [printedByStep_of_not_engine (by simp [hr]), List.append_nil]
    exact ⟨_, step_of_halted hc hr, rfl⟩
  | running =>
    rw [step_of_running hc hr]
    cases hf : fetch s with
    | none =>
      rw [printedByStep_of_fetch_eq_none hf, List.append_nil]
      exact ⟨_, engineStep_of_fetch_eq_none hf, faultEntry_outq s _⟩
    | some w =>
      rw [engineStep_of_fetch_eq_some hf, printedByStep_of_fetch_eq_some hc hr hf]
      exact exists_exec_outq (decode w) s

end

/-! ## What has left the block and what waits -/

/-- Every byte the block has put out, oldest first: those the consumer has received, and those that wait in `OUTQ`. -/
def World.output (w : World) : List Byte := w.sink ++ w.core.outq

theorem World.output_move_block (w : World) : (w.move .block).output = w.output ++ printedByStep w.core := by
  by_cases hc : Config.capacityOk w.core.memWords = true
  · obtain ⟨t, hstep, houtq⟩ := exists_step_outq hc
    simp [World.output, World.move, hstep, houtq]
  · simp [World.move, step_of_not_capacityOk hc, printedByStep_of_not_engine (fun h => hc h.1)]

/-- A pop moves the oldest waiting byte to the end of the received ones (R238). -/
theorem World.output_move_pop (w : World) : (w.move .pop).output = w.output := by
  cases h : w.core.outq with
  | nil => simp [World.move, popOutput, h]
  | cons c rest => simp [World.output, World.move, popOutput, h]

theorem World.output_move_present (image : BootImage) (w : World) : (w.move (.present image)).output = w.output := by
  by_cases h : w.core.runState = .idle ∧ w.core.image = .absent ∧ w.core.loadError = false
  · simp [World.output, World.move, presentImage, h]
  · simp [World.move, presentImage, if_neg h]

/-- Along a run the output grows by what the steps print (R240). -/
theorem World.output_run (ms : List Move) (w : World) : (World.run ms w).output = w.output ++ printedAlong ms w := by
  induction ms generalizing w with
  | nil => exact (List.append_nil _).symm
  | cons m rest ih =>
    rw [World.run, ih]
    cases m with
    | block => rw [World.output_move_block, printedAlong, List.append_assoc]
    | pop => rw [World.output_move_pop, printedAlong]
    | present image => rw [World.output_move_present, printedAlong]

end Sys2Proof.Machine
end

section
/-! The statements about output and halting (44_output_halt.md). -/

namespace Sys2Proof.Machine

/-- Settles O44, by induction on the moves: a step adds what it prints at the end of the received and waiting bytes, and a pop
or an image changes nothing in them. -/
theorem outputIsNeitherLostNorReordered : Obligations.OutputIsNeitherLostNorReordered := World.output_run

/-- Settles O20: with its field inside, `prn` retires with the byte appended; otherwise the field faults. -/
theorem prnAppendsTheLowByte : Obligations.PrnAppendsTheLowByte := by
  intro addr s
  rw [exec_prn]
  refine ⟨decode_prn addr, fun hhalt haddr => ?_, checkField_outside _⟩
  rw [checkField_inside _ haddr]
  exact retire_running _ _ hhalt

/-- Settles O21: `eof` ends in the halt check with `HALT` set, where `SignalHalt` is performed for the first time. -/
theorem eofHaltsAndKeepsIp : Obligations.EofHaltsAndKeepsIp := by
  refine ⟨decode_eof, fun s hsent => ?_⟩
  rw [exec_eof]
  exact congrArg Host.Outcome.next (signalHalt_of_not_sent hsent)

end Sys2Proof.Machine
end

section
/-! SUPPORT. Encoding and decoding undo each other (R115), with the canonical form between them (R108). -/

namespace Sys2Proof

/-! ## The encoder, then the decoder -/

/-- An instruction has no encoding exactly when it is an unknown opcode (R115). -/
theorem encode_eq_none_iff {i : Instr} : encode i = none ↔ ∃ opc : Byte, i = .unknown opc := by
  cases i <;> simp [encode]

theorem decode_of_encode_eq_some {i : Instr} {w : Word} (h : encode i = some w) : decode w = i := by
  cases i with
  | unknown opc => cases h
  | _ =>
    cases h
    simp only [decode_mov, decode_str, decode_adi, decode_sui, decode_jmp, decode_jz, decode_cmp, decode_prn, decode_mul,
      decode_div, decode_mop, decode_eof, imm16_halves]

/-! ## The canonical form -/

theorem canonical_iff {w : Word} : canonical w = true ↔ canonicalise w = w := decide_eq_true_iff

theorem opcodeField_canonicalise (w : Word) : opcodeField (canonicalise w) = opcodeField w := by
  conv_lhs => rw [← wordOfBytes_fields w, canonicalise_wordOfBytes]
  cases formatOf (opcodeField w) <;> exact opcodeField_wordOfBytes _ _ _ _

theorem canonical_canonicalise (w : Word) : canonical (canonicalise w) = true := by
  rw [canonical_iff, canonicalise, opcodeField_canonicalise, canonicalise, BitVec.and_assoc, BitVec.and_self]

/-! ## The decoder, then the encoder -/

theorem wordOfBytes_imm16_halves (opc op1 hi lo : Byte) :
    wordOfBytes opc op1 ((hi ++ lo : Imm16).extractLsb' 8 8) ((hi ++ lo : Imm16).extractLsb' 0 8) =
      wordOfBytes opc op1 hi lo := by
  rw [← append_imm16_eq_wordOfBytes, wordOfBytes, BitVec.append_assoc (x₁ := opc ++ op1), BitVec.cast_eq]

/-- Each known opcode's case of the decoder keeps exactly the fields that its format uses (R103 to R108, R111). -/
theorem encode_decode_wordOfBytes {opc : Byte} (h : opc ∈ knownOpcodes) (op1 hi lo : Byte) :
    encode (decode (wordOfBytes opc op1 hi lo)) = some (canonicalise (wordOfBytes opc op1 hi lo)) := by
  rw [canonicalise_wordOfBytes]
  simp only [knownOpcodes, List.mem_cons, List.not_mem_nil, or_false] at h
  obtain rfl | rfl | rfl | rfl | rfl | rfl | rfl | rfl | rfl | rfl | rfl | rfl := h
  all_goals
    simp only [decode_mov, decode_str, decode_adi, decode_sui, decode_jmp, decode_jz, decode_cmp, decode_prn, decode_mul,
      decode_div, decode_mop, decode_eof, encode, wordOfBytes_imm16_halves]
    rfl

/-- The encoder gives the canonical form of a decoded word of a known opcode (R115). -/
theorem encode_decode_of_known {w : Word} (h : knownOpcode (opcodeField w) = true) :
    encode (decode w) = some (canonicalise w) := by
  rw [knownOpcode, List.contains_iff_mem] at h
  rw [← wordOfBytes_fields w]
  exact encode_decode_wordOfBytes h _ _ _

theorem encode_decode_of_unknown {w : Word} (h : knownOpcode (opcodeField w) = false) : encode (decode w) = none := by
  rw [decode_of_knownOpcode_eq_false h, encode]

theorem encode_decode_eq_some_iff {w : Word} :
    encode (decode w) = some w ↔ canonical w = true ∧ knownOpcode (opcodeField w) = true := by
  cases hk : knownOpcode (opcodeField w) with
  | true => simp [encode_decode_of_known hk, canonical_iff]
  | false => simp [encode_decode_of_unknown hk]

/-- With a known opcode, the canonical form is an encoding of the decoded instruction (R108). -/
theorem decode_canonicalise (w : Word) : decode (canonicalise w) = decode w := by
  cases hk : knownOpcode (opcodeField w) with
  | true => exact decode_of_encode_eq_some (encode_decode_of_known hk)
  | false =>
    have hk' : knownOpcode (opcodeField (canonicalise w)) = false := by rwa [opcodeField_canonicalise]
    rw [decode_of_knownOpcode_eq_false hk', decode_of_knownOpcode_eq_false hk, opcodeField_canonicalise]

/-! ## Well-formed instructions -/

theorem wellFormed_unknown_iff {opc : Byte} : WellFormed (.unknown opc) ↔ knownOpcode opc = false := by
  simp [WellFormed, Instr.wellFormed]

theorem wellFormed_of_encode_eq_some {i : Instr} {w : Word} (h : encode i = some w) : WellFormed i := by
  cases i with
  | unknown opc => cases h
  | _ => rfl

theorem wellFormed_decode (w : Word) : WellFormed (decode w) := by
  cases hk : knownOpcode (opcodeField w) with
  | true => exact wellFormed_of_encode_eq_some (encode_decode_of_known hk)
  | false => rwa [decode_of_knownOpcode_eq_false hk, wellFormed_unknown_iff]

theorem exists_decode_eq {i : Instr} (h : WellFormed i) : ∃ w : Word, decode w = i := by
  cases he : encode i with
  | some w => exact ⟨w, decode_of_encode_eq_some he⟩
  | none =>
    obtain ⟨opc, rfl⟩ := encode_eq_none_iff.mp he
    exact ⟨wordOfBytes opc 0 0 0, decode_unknown (wellFormed_unknown_iff.mp h) 0 0 0⟩

end Sys2Proof
end

section
/-! The statements about the encoding (30_encoding.md): decode and encode, and the canonical form. -/

namespace Sys2Proof.Machine

/-- Settles O3: the decoder undoes the encoder, and a word that is the encoding of what it decodes to is canonical. -/
theorem decodeOfEncodeGivesTheInstructionBack : Obligations.DecodeOfEncodeGivesTheInstructionBack := by
  intro i _
  cases he : encode i with
  | none => exact .inl ⟨encode_eq_none_iff.mp he, rfl⟩
  | some w =>
    have hdec : decode w = i := decode_of_encode_eq_some he
    obtain ⟨hcanon, _⟩ := encode_decode_eq_some_iff.mp (hdec.symm ▸ he)
    exact .inr ⟨w, rfl, hdec, hcanon⟩

/-- Settles O4: the encoding of a decoded word is its canonical form, or nothing when the opcode is unknown. -/
theorem encodeOfDecodeGivesExactlyCanonicalWordsBack : Obligations.EncodeOfDecodeGivesExactlyCanonicalWordsBack :=
  fun _ => encode_decode_eq_some_iff

/-- Settles O5: an encoding decodes to its instruction, and any word of an unknown opcode to `unknown`. -/
theorem decodedInstructionsAreTheWellFormedOnes : Obligations.DecodedInstructionsAreTheWellFormedOnes := by
  refine fun i => ⟨exists_decode_eq, ?_⟩
  rintro ⟨w, rfl⟩
  exact wellFormed_decode w

/-- Settles O6: two words with the same cleared form decode as that form does. -/
theorem ignoredFieldsNeverAffectDecode : Obligations.IgnoredFieldsNeverAffectDecode := by
  refine ⟨fun w => ⟨decode_canonicalise w, canonical_canonicalise w⟩, fun v w h => ?_⟩
  rw [← decode_canonicalise v, h, decode_canonicalise w]

/-- Settles O1, by running the decoder on the fifteen words. -/
theorem sampleWordsDecode : Obligations.SampleWordsDecode := by
  unfold Obligations.SampleWordsDecode
  decide

/-- Settles O7: each of the three is a zero extension to the word's width. -/
theorem addressFieldsAndImmediatesAreUnsigned : Obligations.AddressFieldsAndImmediatesAreUnsigned :=
  ⟨fun f => ⟨directAddr_toNat f, jumpTarget_toNat f⟩, immediate_toNat⟩

end Sys2Proof.Machine
end

section
/-! SUPPORT. The canonical form of the Memory Unit determines it (R42), and what a fetch sees after a store (R82). -/

namespace Sys2Proof.Machine

/-- Canonical memories that list the same cells are equal: both are in rising address order. -/
theorem Memory.eq_of_forall_mem_iff {m m' : Memory} (hm : m.wf) (hm' : m'.wf) (h : ∀ c, c ∈ m ↔ c ∈ m') : m = m' := by
  have hnodup : ∀ {l : Memory}, l.wf → l.Nodup := fun hl => hl.1.imp fun hlt => ne_of_apply_ne Prod.fst hlt.ne
  have hperm : m.Perm m' := (List.perm_ext_iff_of_nodup (hnodup hm) (hnodup hm')).mpr h
  exact hperm.eq_of_pairwise (fun c d _ _ hcd hdc => absurd hcd hdc.asymm) hm.1 hm'.1

theorem fetch_setIp (s : State) (a : Word) :
    fetch (s.setIp a) = if a.toNat < s.memWords then some (s.mem.readWord a.toNat) else none := by
  simp [fetch, State.inMemory_iff, State.memRead]

/-- What a fetch sees after a store: the word stored at its own index, and any other word as before (R82, R85). -/
theorem fetch_memWrite_setIp (s : State) (a a' v : Word) :
    fetch ((s.memWrite a v).setIp a') =
      if a'.toNat < s.memWords then some (if a' = a then v else s.mem.readWord a'.toNat) else none := by
  rw [fetch_setIp, State.memWrite_memWords, State.memWrite_mem, Memory.readWord_writeWord]
  simp only [BitVec.toNat_inj]

end Sys2Proof.Machine
end

section
/-! The statements about the Memory Unit and the fetch (10_state.md, 20_memory.md). -/

namespace Sys2Proof.Machine

/-- Settles O8: a canonical memory lists exactly the bytes that do not read as an unlisted one. -/
theorem canonicalMemoriesThatReadAlikeAreEqual : Obligations.CanonicalMemoriesThatReadAlikeAreEqual := by
  intro m m' hm hm' hread
  refine Memory.eq_of_forall_mem_iff hm hm' fun c => ?_
  rw [Memory.mem_iff_of_wf m hm, Memory.mem_iff_of_wf m' hm', hread]

/-- Settles O9: the fetch reads the word at its index, and a store changes the word at its own index only. -/
theorem fetchSeesTheWordStoredLast : Obligations.FetchSeesTheWordStoredLast := by
  refine fun s a v hin => ⟨?_, fun a' hne => ?_⟩
  · rw [fetch_memWrite_setIp, if_pos hin, if_pos rfl]
  · rw [fetch_memWrite_setIp, fetch_setIp, if_neg hne]

/-- Settles O23: the fetch of a Running engine finds the word at `ip`, and the step is that word's instruction. -/
theorem stepRunsTheDecodedInstruction : Obligations.StepRunsTheDecodedInstruction := by
  rintro s _ hc hr hin rfl
  calc step s = engineStep s := step_of_running hc hr
    _ = exec (decode (s.mem.readWord s.ip.toNat)) s := engineStep_of_fetch_eq_some (fetch_eq_some.mpr ⟨hin, rfl⟩)

/-- Settles O25: the step is the `str` that was fetched, and its store at `ip` is what a fetch at that `ip` then gives. -/
theorem strOverItsOwnWordCompletesAsFetched : Obligations.StrOverItsOwnWordCompletesAsFetched := by
  intro dst imm s hc hr hhalt hip hdst hdec
  obtain ⟨m, hexec, hword, hrest⟩ := retire_writeOperand dst (immediate imm) hhalt
  refine ⟨m, ?_, fetch_eq_some.mpr ⟨hip ▸ hdst, ?_⟩, hrest⟩
  · rw [stepRunsTheDecodedInstruction s _ hc hr (hip ▸ hdst) hdec, exec_str, checkField_inside _ hdst, hexec]
  · exact hip ▸ hword

end Sys2Proof.Machine
end

section
/-! SUPPORT. The second layer that proofs about every instruction go through: after its checks an instruction faults on a zero
divisor, or updates the state and retires (R144, R198); the fields that each part leaves as they were; and the same for a step. -/

namespace Sys2Proof.Machine

/-! ## An instruction that does not fault updates the state and retires -/

/-- What an instruction that does not fault does to the state before the end of its step. -/
def effect (i : Instr) (s : State) : State :=
  match i with
  | .mov dst src => s.writeOperand dst (s.operand src)
  | .str dst imm => s.writeOperand dst (immediate imm)
  | .adi dst imm => s.writeChecked (directAddr dst) (aluAdd (s.operand dst) (immediate imm))
  | .sui dst imm =>
    (s.writeChecked (directAddr dst) (aluSub (s.operand dst) (immediate imm))).setZero
      (zeroAfterSub s.zero (aluSub (s.operand dst) (immediate imm)))
  | .jmp _ => s
  | .jz _ => s
  | .cmp a b => s.setZero (zeroAfterCompare (s.operand a) (s.operand b))
  | .prn addr => s.emit (outputByte (s.operand addr))
  | .mul dst src => s.writeChecked (directAddr dst) (aluMul (s.operand dst) (s.operand src))
  | .div dst src =>
    match aluDiv (s.operand dst) (s.operand src) with
    | some q => s.writeOperand dst q
    | none => s
  | .mop dst src => s.writeOperand dst (s.indirectOperand src)
  | .eof => s.setHalt
  | .unknown _ => s

/-- The spec's `next_ip` of an instruction (R143, R213, R216). -/
def nextIpOf (i : Instr) (s : State) : Word :=
  match i with
  | .jmp target => jumpTarget target
  | .jz target => if s.zero then jumpTarget target else s.followingIp
  | _ => s.followingIp

theorem aluDiv_operand_eq_none_iff {dst src : Byte} {s : State} :
    aluDiv (s.operand dst) (s.operand src) = none ↔ dividesByZero (.div dst src) s = true := by
  rw [aluDiv_eq_none, dividesByZero, beq_iff_eq, ← BitVec.toNat_inj, BitVec.ofNat_eq_ofNat, BitVec.toNat_zero]

theorem exists_div_of_dividesByZero {i : Instr} {s : State} (h : dividesByZero i s = true) :
    ∃ dst src : Byte, i = .div dst src ∧ s.operand src = 0 := by
  cases i with
  | div dst src => exact ⟨dst, src, rfl, beq_iff_eq.mp h⟩
  | _ => cases h

theorem exec_of_dividesByZero {i : Instr} {s : State} (hbad : firstBadAddress i s = none) (h : dividesByZero i s = true) :
    exec i s = .next (faultEntry (.arithmeticFault s.ip) s) := by
  obtain ⟨dst, src, rfl, _⟩ := exists_div_of_dividesByZero h
  rw [exec_of_firstBadAddress_eq_none hbad, afterChecks, aluDiv_operand_eq_none_iff.mpr h, raiseArithmeticFault]

theorem exec_eq_retire {i : Instr} {s : State} (hbad : firstBadAddress i s = none) (h : dividesByZero i s = false) :
    exec i s = retire (nextIpOf i s) (effect i s) := by
  rw [exec_of_firstBadAddress_eq_none hbad]
  cases i with
  | div dst src =>
    rw [afterChecks, effect]
    cases hq : aluDiv (s.operand dst) (s.operand src) with
    | none => exact absurd (aluDiv_operand_eq_none_iff.mp hq) (by simp [h])
    | some q => rfl
  | _ => rfl

/-- Everything an instruction does: one of the two faults, in their order, or its effect and the end of the step. -/
theorem exec_outcomes {i : Instr} {s t : State} (h : exec i s = .next t) :
    (∃ a, firstBadAddress i s = some a ∧ t = faultEntry (.addressFault s.ip a) s) ∨
      (firstBadAddress i s = none ∧ dividesByZero i s = true ∧ t = faultEntry (.arithmeticFault s.ip) s) ∨
      (firstBadAddress i s = none ∧ dividesByZero i s = false ∧ retire (nextIpOf i s) (effect i s) = .next t) := by
  obtain hfault | ⟨hbad, _⟩ := exec_cases h
  · exact .inl hfault
  · cases hdiv : dividesByZero i s with
    | true =>
      rw [exec_of_dividesByZero hbad hdiv] at h
      cases h
      exact .inr (.inl ⟨hbad, rfl, rfl⟩)
    | false => exact .inr (.inr ⟨hbad, rfl, exec_eq_retire hbad hdiv ▸ h⟩)

/-! ## What the effect leaves as it was -/

theorem State.writeChecked_eq (s : State) (a : Word) (r : Option Word) :
    s.writeChecked a r = { s with mem := (s.writeChecked a r).mem, ovf := (s.writeChecked a r).ovf } := by
  cases r <;> rfl

/-- The effect of an instruction writes memory, `ZERO`, `OVF`, `OUTQ` and `HALT` at most (R78, R261). -/
theorem effect_eq (i : Instr) (s : State) :
    effect i s = { s with
      mem := (effect i s).mem, zero := (effect i s).zero, ovf := (effect i s).ovf, outq := (effect i s).outq,
      halt := (effect i s).halt } := by
  cases i with
  | adi dst imm | mul dst src => rw [effect, State.writeChecked_eq]
  | sui dst imm =>
    rw [effect, State.writeChecked_eq]
    rfl
  | div dst src =>
    rw [effect]
    cases aluDiv (s.operand dst) (s.operand src) <;> rfl
  | _ => rfl

section
variable (i : Instr) (s : State)

@[simp] theorem effect_memWords : (effect i s).memWords = s.memWords := by rw [effect_eq]
@[simp] theorem effect_ip : (effect i s).ip = s.ip := by rw [effect_eq]
@[simp] theorem effect_fault : (effect i s).fault = s.fault := by rw [effect_eq]
@[simp] theorem effect_runState : (effect i s).runState = s.runState := by rw [effect_eq]
@[simp] theorem effect_haltSent : (effect i s).haltSent = s.haltSent := by rw [effect_eq]
@[simp] theorem effect_haltEvents : (effect i s).haltEvents = s.haltEvents := by rw [effect_eq]
@[simp] theorem effect_loadError : (effect i s).loadError = s.loadError := by rw [effect_eq]

/-- `eof` sets `HALT` and no other effect touches it (R37). -/
theorem effect_halt : (effect i s).halt = (s.halt || decide (i = .eof)) := by
  cases i with
  | adi dst imm | sui dst imm | mul dst src =>
    rw [effect, State.writeChecked_eq]
    simp
  | div dst src =>
    rw [effect]
    cases aluDiv (s.operand dst) (s.operand src) <;> simp
  | _ => simp [effect]

end

/-! ## `next_ip` -/

theorem nextIpOf_cases (i : Instr) (s : State) :
    nextIpOf i s = s.followingIp ∨ ∃ target : Byte, nextIpOf i s = jumpTarget target := by
  cases i with
  | jmp target => exact .inr ⟨target, rfl⟩
  | jz target =>
    cases hz : s.zero with
    | true => exact .inr ⟨target, by rw [nextIpOf, if_pos hz]⟩
    | false => exact .inl (by rw [nextIpOf, if_neg (by simp [hz])])
  | _ => exact .inl rfl

theorem capacityOk_iff {n : Nat} : Config.capacityOk n = true ↔ 1 ≤ n ∧ n < 2 ^ 32 := by
  rw [Config.capacityOk, Bool.and_eq_true, decide_eq_true_iff, decide_eq_true_iff, Config.memWordsMax]
  omega

/-- From an index inside the Memory Unit, `next_ip` is at most `N` or a jump target (R33, R213). -/
theorem toNat_nextIpOf_le (i : Instr) {s : State} (hc : Config.capacityOk s.memWords = true)
    (hip : s.ip.toNat < s.memWords) : (nextIpOf i s).toNat ≤ max s.memWords 255 := by
  obtain ⟨_, hmax⟩ := capacityOk_iff.mp hc
  obtain hn | ⟨target, hn⟩ := nextIpOf_cases i s
  · have hsucc : s.followingIp.toNat = s.ip.toNat + 1 := BitVec.toNat_add_of_lt (by simp; omega)
    rw [hn, hsucc]
    omega
  · have htarget := target.isLt
    rw [hn, jumpTarget_toNat]
    omega

/-! ## Taking a fault -/

theorem signalHalt_eq (s : State) :
    signalHalt s = { s with haltSent := true, haltEvents := (signalHalt s).haltEvents } := by
  cases h : s.haltSent with
  | true => rw [signalHalt, if_pos h, ← h]
  | false => rw [signalHalt_of_not_sent h]

/-- Fatal-fault entry, field by field (R268, R270). -/
theorem faultEntry_eq (r : FaultRecord) (s : State) :
    faultEntry r s = { s with
      fault := r, halt := true, runState := .halted, haltSent := true, haltEvents := (faultEntry r s).haltEvents } :=
  signalHalt_eq _

theorem le_of_firstBadAddress_eq_some {i : Instr} {s : State} {a : Word} (h : firstBadAddress i s = some a) :
    s.memWords ≤ a.toNat := by
  simpa [State.inMemory] using List.find?_some h

/-- With no bad address, every index the instruction references is inside (R266). -/
theorem lt_of_firstBadAddress_eq_none {i : Instr} {s : State} {a : Word} (h : firstBadAddress i s = none)
    (ha : a ∈ addressesOf i s) : a.toNat < s.memWords := by
  simpa [State.inMemory] using List.find?_eq_none.mp h a ha

/-- The word an instruction may write is among those whose index it checks (R78, R261). -/
theorem mem_addressesOf_of_writesOf {i : Instr} {s : State} {a : Word} (h : writesOf i = some a) : a ∈ addressesOf i s := by
  cases i with
  | mov dst src | str dst imm | adi dst imm | sui dst imm | mul dst src | div dst src | mop dst src =>
    cases h
    exact List.mem_cons_self
  | jmp target | jz target | cmp x y | prn addr | eof | unknown opc => cases h

/-! ## The loader -/

/-- The loader writes memory, `RUNSTATE`, `load_error` and the draw counter at most (R293, R294). -/
theorem loaderStep_eq (s : State) :
    loaderStep s = { s with
      mem := (loaderStep s).mem, runState := (loaderStep s).runState, loadError := (loaderStep s).loadError,
      freeDraws := (loaderStep s).freeDraws } := by
  obtain h | ⟨_, h⟩ | ⟨image, _, _, _, h⟩ := loaderStep_cases s <;> rw [h]
  · rfl
  · rfl

section
variable (s : State)

@[simp] theorem loaderStep_memWords : (loaderStep s).memWords = s.memWords := by rw [loaderStep_eq]
@[simp] theorem loaderStep_ip : (loaderStep s).ip = s.ip := by rw [loaderStep_eq]
@[simp] theorem loaderStep_halt : (loaderStep s).halt = s.halt := by rw [loaderStep_eq]
@[simp] theorem loaderStep_fault : (loaderStep s).fault = s.fault := by rw [loaderStep_eq]

/-- The loader starts the engine or leaves `RUNSTATE` (R293, R294). -/
theorem loaderStep_runState_cases : (loaderStep s).runState = s.runState ∨ (loaderStep s).runState = .running := by
  obtain h | ⟨_, h⟩ | ⟨image, _, _, _, h⟩ := loaderStep_cases s <;> rw [h]
  · exact .inl rfl
  · exact .inl rfl
  · exact .inr rfl

end

/-! ## One step -/

theorem runningInstr_of_running {s : State} (hc : Config.capacityOk s.memWords = true) (hr : s.runState = .running) :
    runningInstr s = (fetch s).map decode :=
  if_pos ⟨hc, hr⟩

theorem fault_of_retire {nextIp : Word} {s t : State} (h : retire nextIp s = .next t) : t.fault = s.fault := by
  obtain ⟨_, rfl⟩ | ⟨_, rfl⟩ := retire_cases h <;> simp

/-- `FAULT` is written by fatal-fault entry of a Running engine only (R40). -/
theorem faultEntry_of_step {s t : State} (h : step s = .next t) (hne : t.fault ≠ s.fault) :
    s.runState = .running ∧ ∃ r, t = faultEntry r s := by
  obtain ⟨_, ⟨_, rfl⟩ | ⟨hr, _, rfl⟩ | ⟨hr, w, _, hexec⟩ | ⟨_, rfl⟩⟩ := step_cases h
  · exact absurd (loaderStep_fault s) hne
  · exact ⟨hr, _, rfl⟩
  · obtain ⟨_, _, rfl⟩ | ⟨_, _, rfl⟩ | ⟨_, _, hret⟩ := exec_outcomes hexec
    · exact ⟨hr, _, rfl⟩
    · exact ⟨hr, _, rfl⟩
    · exact absurd ((fault_of_retire hret).trans (effect_fault _ s)) hne
  · exact absurd rfl hne

/-- A step leaves `ip`, or takes it from an index inside the Memory Unit to the `next_ip` of an instruction (R143, R144). -/
theorem ip_of_step {s t : State} (h : step s = .next t) :
    t.ip = s.ip ∨ s.ip.toNat < s.memWords ∧ ∃ i, t.ip = nextIpOf i s := by
  obtain ⟨_, ⟨_, rfl⟩ | ⟨_, _, rfl⟩ | ⟨_, w, hf, hexec⟩ | ⟨_, rfl⟩⟩ := step_cases h
  · exact .inl (loaderStep_ip s)
  · exact .inl (faultEntry_ip s _)
  · obtain ⟨_, _, rfl⟩ | ⟨_, _, rfl⟩ | ⟨_, _, hret⟩ := exec_outcomes hexec
    · exact .inl (faultEntry_ip s _)
    · exact .inl (faultEntry_ip s _)
    · obtain ⟨_, rfl⟩ | ⟨_, rfl⟩ := retire_cases hret
      · exact .inr ⟨(fetch_eq_some.mp hf).1, _, rfl⟩
      · exact .inl (by simp)
  · exact .inl rfl

theorem memWords_of_step {s t : State} (h : step s = .next t) : t.memWords = s.memWords := by
  obtain ⟨_, ⟨_, rfl⟩ | ⟨_, _, rfl⟩ | ⟨_, w, _, hexec⟩ | ⟨_, rfl⟩⟩ := step_cases h
  · exact loaderStep_memWords s
  · exact faultEntry_memWords s _
  · obtain ⟨_, _, rfl⟩ | ⟨_, _, rfl⟩ | ⟨_, _, hret⟩ := exec_outcomes hexec
    · exact faultEntry_memWords s _
    · exact faultEntry_memWords s _
    · obtain ⟨_, rfl⟩ | ⟨_, rfl⟩ := retire_cases hret <;> simp
  · rfl

/-- The bound on `ip` that every step keeps (R33, R213; log entry 7). -/
theorem ip_le_of_step {s t : State} (h : step s = .next t) (hip : s.ip.toNat ≤ max s.memWords 255) :
    t.ip.toNat ≤ max t.memWords 255 := by
  rw [memWords_of_step h]
  obtain hsame | ⟨hin, i, hnext⟩ := ip_of_step h
  · rwa [hsame]
  · rw [hnext]
    exact toNat_nextIpOf_le i (step_cases h).1 hin

theorem halt_of_retire {nextIp : Word} {s t : State} (h : retire nextIp s = .next t) : t.halt = s.halt := by
  obtain ⟨_, rfl⟩ | ⟨_, rfl⟩ := retire_cases h <;> simp

/-- A step keeps `HALT`, or sets it because it ran `eof` or took a fault (R37). -/
theorem halt_of_step {s t : State} (h : step s = .next t) :
    t.halt = s.halt ∨ t.halt = true ∧ (runningInstr s = some .eof ∨ t.fault ≠ .none) := by
  obtain ⟨hc, ⟨_, rfl⟩ | ⟨_, _, rfl⟩ | ⟨hr, w, hf, hexec⟩ | ⟨_, rfl⟩⟩ := step_cases h
  · exact .inl (loaderStep_halt s)
  · exact .inr ⟨by simp, .inr (by simp)⟩
  · obtain ⟨_, _, rfl⟩ | ⟨_, _, rfl⟩ | ⟨_, _, hret⟩ := exec_outcomes hexec
    · exact .inr ⟨by simp, .inr (by simp)⟩
    · exact .inr ⟨by simp, .inr (by simp)⟩
    · rw [halt_of_retire hret, effect_halt, runningInstr_of_running hc hr, hf]
      by_cases heof : decode w = .eof <;> simp [heof]
  · exact .inl rfl

end Sys2Proof.Machine
end

section
/-! The statements about the run state, `ip` and the faults (10_state.md, 60_exceptions.md). -/

namespace Sys2Proof.Machine

/-- Settles O26: an instruction and a step of a legal capacity always answer, with what they print at the end of `OUTQ`. -/
theorem everyStepAnswersUnlessTheCapacityIsOutOfRange : Obligations.EveryStepAnswersUnlessTheCapacityIsOutOfRange := by
  refine ⟨fun i s => ?_, fun s => ⟨fun hc => ?_, fun hc => step_of_not_capacityOk ?_⟩⟩
  · obtain ⟨t, hexec, _⟩ := exists_exec_outq i s
    exact ⟨t, hexec⟩
  · obtain ⟨t, hstep, _⟩ := exists_step_outq (capacityOk_iff.mpr hc)
    exact ⟨t, hstep⟩
  · rw [ne_eq, capacityOk_iff]
    omega

/-- Settles O28: the loader leaves Idle or starts the engine, and an instruction keeps Running or enters Halted. -/
theorem runStateOnlyMovesForward : Obligations.RunStateOnlyMovesForward := by
  intro s t h
  obtain ⟨_, ⟨hr, rfl⟩ | ⟨hr, _, rfl⟩ | ⟨hr, w, _, hexec⟩ | ⟨hr, rfl⟩⟩ := step_cases h
  · simpa [hr] using loaderStep_runState_cases s
  · simp [hr]
  · simpa [hr] using runState_of_exec hexec
  · simp [hr]

/-- Settles O31: `eof` sets `HALT`, fatal-fault entry sets it with a record, and nothing else writes it. -/
theorem haltIsNeverCleared : Obligations.HaltIsNeverCleared := by
  intro s t h
  obtain hsame | ⟨hset, hwhy⟩ := halt_of_step h
  · exact ⟨hsame.trans, fun hclear hset => absurd (hsame.symm.trans hset) (by simp [hclear])⟩
  · exact ⟨fun _ => hset, fun _ _ => hwhy⟩

/-- Settles O33: a step is the fetch, then the address checks, then the zero divisor, then an effect that keeps `FAULT`. -/
theorem theFirstFaultInOrderIsTaken : Obligations.TheFirstFaultInOrderIsTaken := by
  intro s hc hr
  rw [step_of_running hc hr, runningInstr_of_running hc hr]
  cases hf : fetch s with
  | none => exact engineStep_of_fetch_eq_none hf
  | some w =>
    simp only [Option.map_some, engineStep_of_fetch_eq_some hf]
    cases hbad : firstBadAddress (decode w) s with
    | some a => exact exec_of_firstBadAddress_eq_some hbad
    | none =>
      cases hdiv : dividesByZero (decode w) s with
      | true => exact exec_of_dividesByZero hbad hdiv
      | false =>
        obtain ⟨t, hexec, _⟩ := exists_exec_outq (decode w) s
        exact ⟨t, hexec, (fault_of_retire (exec_eq_retire hbad hdiv ▸ hexec)).trans (effect_fault _ s)⟩

/-- Settles O34: only fatal-fault entry writes `FAULT`, and it writes no field but the five. -/
theorem faultsArePrecise : Obligations.FaultsArePrecise := by
  intro s t h hne
  obtain ⟨_, r, rfl⟩ := faultEntry_of_step h hne
  refine ⟨faultEntry_halt s r, faultEntry_runState s r, ?_⟩
  rw [faultEntry_eq]

/-- Settles O32: the entry presents the halt event, which has not been sent before. -/
theorem faultEntryHaltsAndKeepsTheRest : Obligations.FaultEntryHaltsAndKeepsTheRest :=
  fun _ _ hsent => signalHalt_of_not_sent hsent

/-- Settles O35: a record other than `None` stands in Halted states only, where no step writes it. -/
theorem faultRecordIsWrittenOnce : Obligations.FaultRecordIsWrittenOnce := by
  intro s t hinv h hne
  obtain ⟨hr, r, rfl⟩ := faultEntry_of_step h hne
  have hnone : s.fault = .none := by
    by_contra hsome
    simp [hinv.faultHalts hsome] at hr
  exact ⟨hnone, hr, faultEntry_runState s r⟩

/-- Settles O42: from 255 up, the bound on `ip` that every step keeps is `N`. -/
theorem ipStaysWithinTheCapacityFrom255Up : Obligations.IpStaysWithinTheCapacityFrom255Up := by
  intro s t hcap hip h
  have hbound := ip_le_of_step h (le_max_of_le_left hip)
  rwa [max_eq_left (memWords_of_step h ▸ hcap)] at hbound

end Sys2Proof.Machine
end

section
/-! SUPPORT. Every operation of the block and of its host keeps the invariant. -/

namespace Sys2Proof.Machine

section
variable {s t : State}

/-! ## What the invariant says before the end of a run -/

theorem State.Inv.of_not_halted (h : s.Inv) (hs : s.runState ≠ .halted) :
    s.halt = false ∧ s.haltSent = false ∧ s.haltEvents = 0 ∧ s.fault = .none := by
  have hhalt : s.halt = false := by simpa using mt h.haltedIff.mpr hs
  have hsent : s.haltSent = false := h.sentIff.trans hhalt
  exact ⟨hhalt, hsent, by simpa [hsent] using h.oneEvent, by simpa using mt h.faultHalts hs⟩

theorem State.Inv.loadError_of_started (h : s.Inv) (hs : s.runState ≠ .idle) : s.loadError = false := by
  simpa using mt h.loadErrorIdle hs

/-- The events presented are a function of `RUNSTATE` (R45, R244). -/
theorem State.Inv.haltEvents_eq (h : s.Inv) : s.haltEvents = if s.runState = .halted then 1 else 0 := by
  rw [h.oneEvent, h.sentIff]
  simp only [h.haltedIff]

/-! ## The loader -/

theorem imageFits_iff {image : List Byte} {n : Nat} :
    imageFits image n = true ↔ image.length % 4 = 0 ∧ image.length / 4 ≤ n := by
  simp [imageFits]

theorem inv_loadFail (h : s.Inv) (hidle : s.runState = .idle) : (loadFail s).Inv := by
  obtain ⟨_, _, _, hnone⟩ := h.of_not_halted (by simp [hidle])
  exact { h with
    memCanonical := wf_failedLoadMemory _ _
    memBelow := below_failedLoadMemory _ _ _ le_rfl
    faultHolds := by simp [FaultRecordHolds, loadFail, hnone]
    loadErrorIdle := fun _ => hidle }

theorem inv_loadImage {image : List Byte} (h : s.Inv) (hidle : s.runState = .idle) (hload : s.loadError = false)
    (hfit : imageFits image s.memWords = true) : (loadImage image s).Inv := by
  obtain ⟨hhalt, _, _, hnone⟩ := h.of_not_halted (by simp [hidle])
  obtain ⟨_, hlen⟩ := imageFits_iff.mp hfit
  exact { h with
    memCanonical := wf_loadWords _ h.memCanonical 0 image
    memBelow := below_loadWords _ h.memBelow 0 image (by rwa [Nat.zero_add])
    haltedIff := by simp [loadImage, hhalt]
    faultHalts := by simp [loadImage, hnone]
    faultHolds := by simp [FaultRecordHolds, loadImage, hnone]
    idleClean := by simp [loadImage]
    loadErrorIdle := by simp [loadImage, hload] }

theorem inv_loaderStep (h : s.Inv) (hidle : s.runState = .idle) : (loaderStep s).Inv := by
  obtain hsame | ⟨_, hfail⟩ | ⟨image, hload, _, hfit, hok⟩ := loaderStep_cases s
  · rwa [hsame]
  · rw [hfail]
    exact inv_loadFail h hidle
  · rw [hok]
    exact inv_loadImage h hidle hload hfit

/-! ## The entry to Halted -/

/-- The halt event is presented with the entry to Halted, whatever record the entry writes, so long as it is true (R244, R268). -/
theorem inv_enterHalted {r : FaultRecord} (h : s.Inv) (hrun : s.runState = .running) (hr : FaultRecordHolds (s.setFault r)) :
    State.Inv { s with fault := r, halt := true, runState := .halted, haltSent := true, haltEvents := s.haltEvents + 1 } := by
  obtain ⟨_, _, hevents, _⟩ := h.of_not_halted (by simp [hrun])
  exact { h with
    haltedIff := by simp
    sentIff := rfl
    oneEvent := by simp [hevents]
    faultHalts := fun _ => rfl
    faultHolds := hr
    idleClean := by simp
    loadErrorIdle := by simp [h.loadError_of_started (by simp [hrun])] }

theorem inv_faultEntry {r : FaultRecord} (h : s.Inv) (hrun : s.runState = .running) (hr : FaultRecordHolds (s.setFault r)) :
    (faultEntry r s).Inv := by
  obtain ⟨_, hsent, _, _⟩ := h.of_not_halted (by simp [hrun])
  rw [faultEntryHaltsAndKeepsTheRest r s hsent]
  exact inv_enterHalted h hrun hr

theorem inv_exec_eof (h : s.Inv) (hrun : s.runState = .running) : (signalHalt (s.setHalt.setRunState .halted)).Inv := by
  obtain ⟨_, hsent, _, _⟩ := h.of_not_halted (by simp [hrun])
  rw [signalHalt_of_not_sent (s := s.setHalt.setRunState .halted) hsent]
  exact (inv_enterHalted (r := s.fault) h hrun h.faultHolds :)

/-! ## An instruction -/

/-- An instruction whose addresses are inside keeps the memory's form and stores inside the Memory Unit (R42, R266). -/
theorem wf_and_below_of_exec {i : Instr} (h : s.Inv) (hbad : firstBadAddress i s = none) (hexec : exec i s = .next t) :
    t.mem.wf ∧ Memory.below t.mem s.memWords := by
  obtain hsame | ⟨a, v, ha, hmem⟩ := mem_of_exec hexec
  · rw [hsame]
    exact ⟨h.memCanonical, h.memBelow⟩
  · have hin : a.toNat < s.memWords := lt_of_firstBadAddress_eq_none hbad (mem_addressesOf_of_writesOf ha)
    rw [hmem]
    exact ⟨Memory.wf_writeWord _ h.memCanonical _ _, Memory.below_writeWord _ h.memBelow _ _ hin⟩

theorem inv_setIp_effect {i : Instr} (h : s.Inv) (hrun : s.runState = .running) (hip : s.ip.toNat < s.memWords)
    (hhalt : (effect i s).halt = false) (hmem : (effect i s).mem.wf ∧ Memory.below (effect i s).mem s.memWords) :
    ((effect i s).setIp (nextIpOf i s)).Inv := by
  obtain ⟨_, hsent, hevents, hnone⟩ := h.of_not_halted (by simp [hrun])
  exact {
    capacity := by simpa using h.capacity
    memCanonical := hmem.1
    memBelow := by simpa using hmem.2
    ipRange := by simpa using toNat_nextIpOf_le i h.capacity hip
    haltedIff := by simp [hrun, hhalt]
    sentIff := by simp [hsent, hhalt]
    oneEvent := by simp [hsent, hevents]
    faultHalts := by simp [hnone]
    faultHolds := by simp [FaultRecordHolds, hnone]
    idleClean := by simp [hrun]
    loadErrorIdle := by simp [h.loadError_of_started (by simp [hrun])] }

/-- The effect that leaves `HALT` set in a state that had it clear is that of `eof` (R37). -/
theorem eq_eof_of_effect_halt {i : Instr} (hs : s.halt = false) (h : (effect i s).halt = true) : i = .eof := by
  simpa [effect_halt, hs] using h

theorem inv_exec {w : Word} (h : s.Inv) (hrun : s.runState = .running) (hf : fetch s = some w)
    (hexec : exec (decode w) s = .next t) : t.Inv := by
  obtain ⟨hip, rfl⟩ := fetch_eq_some.mp hf
  obtain ⟨a, hbad, rfl⟩ | ⟨_, hdiv, rfl⟩ | ⟨hbad, _, hret⟩ := exec_outcomes hexec
  · exact inv_faultEntry h hrun ⟨rfl, le_of_firstBadAddress_eq_some hbad⟩
  · obtain ⟨dst, src, hdec, hzero⟩ := exists_div_of_dividesByZero hdiv
    exact inv_faultEntry h hrun ⟨rfl, (State.inMemory_iff s s.ip).mpr hip, dst, src, hdec, hzero⟩
  · have hmem := wf_and_below_of_exec h hbad hexec
    obtain ⟨hhalt, rfl⟩ | ⟨hhalt, rfl⟩ := retire_cases hret
    · exact inv_setIp_effect h hrun hip hhalt hmem
    · obtain ⟨hclear, _⟩ := h.of_not_halted (by simp [hrun])
      rw [eq_eof_of_effect_halt hclear hhalt]
      exact inv_exec_eof h hrun

/-! ## A step, and the host's actions -/

theorem inv_step (h : s.Inv) (hstep : step s = .next t) : t.Inv := by
  obtain ⟨_, ⟨hidle, rfl⟩ | ⟨hrun, hout, rfl⟩ | ⟨hrun, w, hf, hexec⟩ | ⟨_, rfl⟩⟩ := step_cases hstep
  · exact inv_loaderStep h hidle
  · exact inv_faultEntry h hrun ⟨rfl, hout⟩
  · exact inv_exec h hrun hf hexec
  · exact h

/-- Everything a pop does: it takes the head of `OUTQ` (R238). -/
theorem popOutput_eq_some {c : Byte} :
    popOutput s = some (c, t) ↔ ∃ rest, s.outq = c :: rest ∧ t = { s with outq := rest } := by
  cases hq : s.outq with
  | nil => simp [popOutput, hq]
  | cons d rest => simp [popOutput, hq, eq_comm]

/-- A state with an entry in `OUTQ` is not Idle, so a pop may change `OUTQ` (R238, R293). -/
theorem inv_popOutput {c : Byte} (h : s.Inv) (hpop : popOutput s = some (c, t)) : t.Inv := by
  obtain ⟨rest, hq, rfl⟩ := popOutput_eq_some.mp hpop
  have hstarted : s.runState ≠ .idle := fun hidle => by
    obtain ⟨_, _, _, hempty⟩ := h.idleClean hidle
    simp [hq] at hempty
  exact { h with idleClean := fun hidle => absurd hidle hstarted }

/-- The image input is no part of the invariant. -/
theorem inv_presentImage {image : BootImage} (h : s.Inv) (hpresent : presentImage image s = some t) : t.Inv := by
  rw [presentImage, Option.ite_none_right_eq_some] at hpresent
  obtain ⟨_, ⟨⟩⟩ := hpresent
  exact { h with }

end

theorem World.inv_move (m : Move) {w : World} (h : w.core.Inv) : (w.move m).core.Inv := by
  cases m with
  | block =>
    cases hstep : step w.core with
    | next t => simpa [World.move, hstep] using inv_step h hstep
    | fault r | refused r => simpa [World.move, hstep] using h
  | pop =>
    cases hpop : popOutput w.core with
    | some p => simpa [World.move, hpop] using inv_popOutput h hpop
    | none => simpa [World.move, hpop] using h
  | present image =>
    cases hpresent : presentImage image w.core with
    | some t => simpa [World.move, hpresent] using inv_presentImage h hpresent
    | none => simpa [World.move, hpresent] using h

/-! ## Reset, and a state from which a jump leaves the Memory Unit -/

theorem inv_resetWith {n : Nat} (hc : Config.capacityOk n = true) : (State.resetWith n).Inv where
  capacity := hc
  memCanonical := Memory.wf_nil
  memBelow := Memory.below_nil n
  ipRange := by simp
  haltedIff := by simp
  sentIff := rfl
  oneEvent := rfl
  faultHalts := by simp
  faultHolds := trivial
  idleClean := by simp
  loadErrorIdle := by simp

/-- One word of memory, and in it `jmp 255` (the case of vector JM4). -/
def jumpPastTheEnd : State := { State.resetWith 1 with mem := [(0, 0x05), (1, 0xFF)], runState := .running }

theorem inv_jumpPastTheEnd : jumpPastTheEnd.Inv :=
  { inv_resetWith (n := 1) rfl with
    memCanonical := by decide
    memBelow := by decide
    haltedIff := by simp [jumpPastTheEnd]
    faultHalts := by simp [jumpPastTheEnd]
    idleClean := by simp [jumpPastTheEnd]
    loadErrorIdle := by simp [jumpPastTheEnd] }

theorem step_jumpPastTheEnd : step jumpPastTheEnd = .next (jumpPastTheEnd.setIp 255) := rfl

end Sys2Proof.Machine
end

section
/-! The statements about the invariant (10_state.md) and the halt event (44_output_halt.md). -/

namespace Sys2Proof.Machine

/-- Settles O39: the loader, the entry to Halted and an effect followed by `ip <- next_ip` each keep the invariant. -/
theorem stepKeepsInv : Obligations.StepKeepsInv := fun _ _ => inv_step

/-- Settles O38: the Memory Unit is empty, and the registers are those of an Idle core. -/
theorem resetSatisfiesInv : Obligations.ResetSatisfiesInv := ⟨inv_resetWith rfl, fun _ => inv_resetWith⟩

/-- Settles O40, by induction on the moves. -/
theorem everyRunKeepsInv : Obligations.EveryRunKeepsInv := by
  intro ms
  induction ms with
  | nil => exact fun _ h => h
  | cons m rest ih => exact fun w h => ih (w.move m) (World.inv_move m h)

/-- Refutes O43: in a Memory Unit of one word, `jmp 255` takes `ip` from 0 to 255. -/
theorem not_ipStaysWithinEveryCapacity : ¬ Obligations.IpStaysWithinEveryCapacity := by
  intro h
  have hle : (255 : Word).toNat ≤ 1 := h _ _ inv_jumpPastTheEnd (Nat.zero_le 1) step_jumpPastTheEnd
  exact absurd hle (by decide)

/-- Settles O49: the counter is 1 in Halted states and 0 in the others, before and after the step. -/
theorem haltEventMarksTheEntryToHalted : Obligations.HaltEventMarksTheEntryToHalted := by
  intro s t hinv hstep
  rw [hinv.haltEvents_eq, (inv_step hinv hstep).haltEvents_eq]
  obtain ⟨hidle, hrunning, hhalted⟩ := runStateOnlyMovesForward s t hstep
  cases hs : s.runState with
  | idle => obtain ht | ht := hidle hs <;> simp [ht]
  | running => obtain ht | ht := hrunning hs <;> simp [ht]
  | halted => simp [hhalted hs]

end Sys2Proof.Machine
end

section
/-! SUPPORT. What the loader does in each of its cases, and what a load leaves in the Memory Unit (R292 to R294). -/

namespace Sys2Proof.Machine

/-! ## The loader, case by case -/

section
variable {s : State}

theorem loaderStep_of_loadError (h : s.loadError = true) : loaderStep s = s := if_pos h

theorem loaderStep_of_absent (h : s.image = .absent) : loaderStep s = s := by
  rw [loaderStep, h, ite_self]

theorem loaderStep_of_unreadable (hload : s.loadError = false) (h : s.image = .unreadable) : loaderStep s = loadFail s := by
  simp [loaderStep, hload, h]

theorem loaderStep_of_fits {image : List Byte} (hload : s.loadError = false) (h : s.image = .bytes image)
    (hfit : imageFits image s.memWords = true) : loaderStep s = loadImage image s := by
  simp [loaderStep, hload, h, hfit]

theorem loaderStep_of_misfit {image : List Byte} (hload : s.loadError = false) (h : s.image = .bytes image)
    (hfit : ¬ imageFits image s.memWords = true) : loaderStep s = loadFail s := by
  simp [loaderStep, hload, h, hfit]

end

/-! ## The words of a loaded image -/

/-- A load leaves every word before its first index and after its last word. -/
theorem readWord_loadWords_outside {m : Memory} {i j : Nat} {image : List Byte} (h : j < i ∨ i + image.length / 4 ≤ j) :
    (loadWords m i image).readWord j = m.readWord j := by
  fun_induction loadWords m i image with
  | case1 m i b0 b1 b2 b3 rest ih =>
    simp only [List.length_cons] at h
    rw [ih (by omega), Memory.readWord_writeWord, if_neg (by omega)]
  | case2 => rfl

/-- Word `k` of the image is its bytes `4k` to `4k+3`, the first the high byte (R73). -/
theorem readWord_loadWords {m : Memory} {i k : Nat} {image : List Byte} {b0 b1 b2 b3 : Byte}
    (h0 : image[4 * k]? = some b0) (h1 : image[4 * k + 1]? = some b1) (h2 : image[4 * k + 2]? = some b2)
    (h3 : image[4 * k + 3]? = some b3) : (loadWords m i image).readWord (i + k) = wordOfBytes b0 b1 b2 b3 := by
  fun_induction loadWords m i image generalizing k with
  | case1 m i c0 c1 c2 c3 rest ih =>
    cases k with
    | zero =>
      cases h0; cases h1; cases h2; cases h3
      rw [readWord_loadWords_outside (.inl (by omega)), Memory.readWord_writeWord, if_pos (by omega)]
    | succ k =>
      rw [← Nat.add_assoc, Nat.add_right_comm]
      exact ih h0 h1 h2 h3
  | case2 image m i hshort =>
    obtain ⟨hlen, _⟩ := List.getElem?_eq_some_iff.mp h3
    obtain _ | ⟨c0, _ | ⟨c1, _ | ⟨c2, _ | ⟨c3, rest⟩⟩⟩⟩ := image
    case cons.cons.cons.cons => exact (hshort c0 c1 c2 c3 rest rfl).elim
    all_goals
      simp only [List.length_cons, List.length_nil] at hlen
      omega

/-! ## A run of no-ops over an empty Memory Unit -/

theorem World.move_block_of_step {w : World} {t : State} (h : step w.core = .next t) :
    w.move .block = { core := t, sink := w.sink } := by
  simp [World.move, h]

/-- A core of `n` words that the empty image has started, at index `k`. -/
def emptyAt (n k : Nat) : State :=
  { State.resetWith n with image := .bytes [], runState := .running, ip := BitVec.ofNat 32 k }

section
variable {n k : Nat}

theorem step_load_empty (hc : Config.capacityOk n = true) :
    step { State.resetWith n with image := .bytes [] } = .next (emptyAt n 0) := by
  rw [step_of_idle (s := { State.resetWith n with image := .bytes [] }) hc rfl, loaderStep_of_fits rfl rfl rfl]
  rfl

theorem toNat_emptyAt_ip (hc : Config.capacityOk n = true) (hk : k ≤ n) : (emptyAt n k).ip.toNat = k :=
  Nat.mod_eq_of_lt (Nat.lt_of_le_of_lt hk (capacityOk_iff.mp hc).2)

/-- Every word of the Memory Unit is 0, an unknown opcode (R146). -/
theorem step_emptyAt (hc : Config.capacityOk n = true) (hk : k < n) : step (emptyAt n k) = .next (emptyAt n (k + 1)) := by
  have hip : (emptyAt n k).ip.toNat < n := by rwa [toNat_emptyAt_ip hc hk.le]
  obtain ⟨_, _, _, hzero⟩ := unknownOpcodesOnlyAdvanceIp
  have hword : decode ((emptyAt n k).mem.readWord (emptyAt n k).ip.toNat) = decode 0 := congrArg decode (Memory.readWord_nil _)
  rw [stepRunsTheDecodedInstruction _ _ hc rfl hip hword, hzero _ rfl]
  have hnext : (emptyAt n k).ip + 1 = BitVec.ofNat 32 (k + 1) := (BitVec.ofNat_add k 1).symm
  rw [hnext]
  rfl

/-- The state in which the empty image's run ends (R150, R296). -/
def emptyEnd (n : Nat) : State :=
  { State.resetWith n with
    image := .bytes [], ip := BitVec.ofNat 32 n, halt := true, runState := .halted,
    fault := .addressFault (BitVec.ofNat 32 n) (BitVec.ofNat 32 n), haltSent := true, haltEvents := 1 }

theorem step_emptyAt_end (hc : Config.capacityOk n = true) : step (emptyAt n n) = .next (emptyEnd n) := by
  obtain ⟨hfault, _⟩ := fetchOutsideMemoryFaults (emptyAt n n) hc rfl
  rw [hfault (toNat_emptyAt_ip hc le_rfl).ge, faultEntryHaltsAndKeepsTheRest _ _ rfl]
  rfl

/-- The `d` no-ops that are left, and the fetch that faults. -/
theorem run_emptyAt (hc : Config.capacityOk n = true) {d : Nat} (hd : k + d = n) (sink : List Byte) :
    World.run (List.replicate (d + 1) .block) { core := emptyAt n k, sink := sink } = { core := emptyEnd n, sink := sink } := by
  induction d generalizing k with
  | zero =>
    obtain rfl : k = n := hd
    exact World.move_block_of_step (step_emptyAt_end hc)
  | succ d ih =>
    rw [List.replicate_succ, World.run, World.move_block_of_step (step_emptyAt hc (by omega))]
    exact ih (by omega)

end

end Sys2Proof.Machine
end

section
/-! The statements about the load (70_reset_and_hazards.md) and the core that waits for one. -/

namespace Sys2Proof.Machine

/-- Settles O51: the image fits, so the step is its load into the zero words of reset. -/
theorem loadPlacesTheImageBigEndian : Obligations.LoadPlacesTheImageBigEndian := by
  intro n image hc hmod hlen
  refine ⟨loadWords [] 0 image, ?_, fun i b0 b1 b2 b3 h0 h1 h2 h3 => ?_, fun i hi => ?_⟩
  · rw [step_of_idle (s := { State.resetWith n with image := .bytes image }) hc rfl,
      loaderStep_of_fits rfl rfl (imageFits_iff.mpr ⟨hmod, hlen⟩)]
    rfl
  · rw [← Nat.zero_add i]
    exact readWord_loadWords h0 h1 h2 h3
  · rw [readWord_loadWords_outside (.inr (by omega)), Memory.readWord_nil]

/-- Settles O52: an image that is unreadable or does not fit fails to load, and no load follows a failed one. -/
theorem failedLoadNeverStarts : Obligations.FailedLoadNeverStarts := by
  intro s hc hidle hload hbad
  have hfail : loaderStep s = loadFail s := by
    obtain himage | ⟨image, himage, hmisfit⟩ := hbad
    · exact loaderStep_of_unreadable hload himage
    · refine loaderStep_of_misfit hload himage ?_
      rw [imageFits_iff]
      omega
  refine ⟨loadFail s, by rw [step_of_idle hc hidle, hfail], rfl, ?_⟩
  rw [step_of_idle (s := loadFail s) hc hidle, loaderStep_of_loadError rfl]

/-- Settles O53: the loader leaves an Idle core with no image presented as it is. -/
theorem idleWaitsForAnImage : Obligations.IdleWaitsForAnImage := by
  intro s hc hidle habsent
  rw [step_of_idle hc hidle, loaderStep_of_absent habsent]

/-- Settles O54, by induction on the no-ops that are left. -/
theorem emptyImageRunsOffTheEnd : Obligations.EmptyImageRunsOffTheEnd := by
  intro n hc
  rw [List.replicate_succ, World.run, World.move_block_of_step (step_load_empty hc)]
  exact run_emptyAt hc (Nat.zero_add n) []

end Sys2Proof.Machine
end

section
/-! SUPPORT. What an instruction and a step do not read: `OVF` (R39), the queue and the image input (R238, R250), and every word
but those of `readsOf` (R78). -/

namespace Sys2Proof.Machine

/-! ## Updates that neither a fault nor the end of a step looks at -/

/-- The update changes no field that fatal-fault entry or the end of a step reads or writes (R144, R268). -/
structure Passive (f : State → State) : Prop where
  ip_eq : ∀ s, (f s).ip = s.ip
  halt_eq : ∀ s, (f s).halt = s.halt
  setIp : ∀ s v, (f s).setIp v = f (s.setIp v)
  setRunState : ∀ s r, (f s).setRunState r = f (s.setRunState r)
  setHalt : ∀ s, (f s).setHalt = f s.setHalt
  setFault : ∀ s r, (f s).setFault r = f (s.setFault r)
  signalHalt : ∀ s, signalHalt (f s) = f (signalHalt s)

/-- Changes memory, `OVF`, `OUTQ` and the image input, each on its own. -/
def State.mapData (m : Memory → Memory) (o : Bool → Bool) (q : List Byte → List Byte) (im : BootImage → BootImage)
    (s : State) : State :=
  { s with mem := m s.mem, ovf := o s.ovf, outq := q s.outq, image := im s.image }

theorem passive_mapData (m : Memory → Memory) (o : Bool → Bool) (q : List Byte → List Byte) (im : BootImage → BootImage) :
    Passive (State.mapData m o q im) where
  ip_eq _ := rfl
  halt_eq _ := rfl
  setIp _ _ := rfl
  setRunState _ _ := rfl
  setHalt _ := rfl
  setFault _ _ := rfl
  signalHalt s := by cases h : s.haltSent <;> simp [Machine.signalHalt, h, State.mapData]

theorem passive_setMem (m : Memory) : Passive fun s => s.setMem m := passive_mapData (fun _ => m) id id id

theorem passive_setOvf (b : Bool) : Passive fun s => s.setOvf b := passive_mapData id (fun _ => b) id id

/-- Other bytes in front of `OUTQ`, and another image input. -/
def State.withPorts (q : List Byte) (image : BootImage) (s : State) : State := { s with outq := q ++ s.outq, image := image }

theorem passive_withPorts (q : List Byte) (image : BootImage) : Passive (State.withPorts q image) :=
  passive_mapData id id (q ++ ·) fun _ => image

section
variable {f g : State → State} {i : Instr} {s t : State}

theorem Passive.faultEntry (hf : Passive f) (r : FaultRecord) (s : State) : faultEntry r (f s) = f (faultEntry r s) := by
  rw [Machine.faultEntry, hf.setFault, hf.setHalt, hf.setRunState, hf.signalHalt, Machine.faultEntry]

theorem Passive.retire (hf : Passive f) {nextIp : Word} (h : retire nextIp s = .next t) :
    Machine.retire nextIp (f s) = .next (f t) := by
  obtain ⟨hs, rfl⟩ | ⟨hs, rfl⟩ := retire_cases h
  · rw [retire_running _ _ ((hf.halt_eq s).trans hs), hf.setIp]
  · rw [retire_halting _ _ ((hf.halt_eq s).trans hs), hf.setRunState, hf.signalHalt]

/-- An update that an instruction does not look at either is one that its fault keeps, or that its effect turns into another such
update. -/
theorem exec_of_passive (hf : Passive f) (hg : Passive g) (hbad : firstBadAddress i (f s) = firstBadAddress i s)
    (hdiv : dividesByZero i (f s) = dividesByZero i s) (hnext : nextIpOf i (f s) = nextIpOf i s)
    (heff : effect i (f s) = g (effect i s)) (h : exec i s = .next t) :
    ((∃ r, t = faultEntry r s) ∧ exec i (f s) = .next (f t)) ∨
      ((∃ nextIp, retire nextIp (effect i s) = .next t) ∧ exec i (f s) = .next (g t)) := by
  obtain ⟨a, hsome, rfl⟩ | ⟨hnone, hzero, rfl⟩ | ⟨hnone, hzero, hret⟩ := exec_outcomes h
  · refine .inl ⟨⟨_, rfl⟩, ?_⟩
    rw [exec_of_firstBadAddress_eq_some (hbad.trans hsome), raiseAddressFault, hf.faultEntry, hf.ip_eq]
  · refine .inl ⟨⟨_, rfl⟩, ?_⟩
    rw [exec_of_dividesByZero (hbad.trans hnone) (hdiv.trans hzero), hf.faultEntry, hf.ip_eq]
  · refine .inr ⟨⟨_, hret⟩, ?_⟩
    rw [exec_eq_retire (hbad.trans hnone) (hdiv.trans hzero), hnext, heff]
    exact hg.retire hret

end

/-! ## `OVF` -/

theorem overflowFlag_eq_decide {result : Option Word} {p : Prop} [Decidable p] (h : result = none ↔ p) :
    overflowFlag result = decide p := by
  rw [Bool.eq_iff_iff, overflowFlag, Option.isNone_iff_eq_none, decide_eq_true_iff, h]

theorem State.writeChecked_ovf (s : State) (a : Word) (r : Option Word) : (s.writeChecked a r).ovf = overflowFlag r := by
  cases r <;> rfl

theorem maxWord_lt_iff {n : Nat} : maxWord < n ↔ 2 ^ 32 ≤ n := by
  rw [maxWord]
  omega

/-- `OVF` after the effect of an instruction: only `adi`, `sui` and `mul` write it (R39, R204). -/
theorem effect_ovf (i : Instr) (s : State) :
    (effect i s).ovf = match i with
      | .adi dst imm => decide (2 ^ 32 ≤ (s.operand dst).toNat + imm.toNat)
      | .sui dst imm => decide ((s.operand dst).toNat < imm.toNat)
      | .mul dst src => decide (2 ^ 32 ≤ (s.operand dst).toNat * (s.operand src).toNat)
      | _ => s.ovf := by
  cases i with
  | adi dst imm =>
    refine (State.writeChecked_ovf s _ _).trans (overflowFlag_eq_decide ?_)
    rw [aluAdd_eq_none, immediate_toNat, maxWord_lt_iff]
  | sui dst imm =>
    refine (State.writeChecked_ovf s _ _).trans (overflowFlag_eq_decide ?_)
    rw [aluSub_eq_none, immediate_toNat]
  | mul dst src =>
    refine (State.writeChecked_ovf s _ _).trans (overflowFlag_eq_decide ?_)
    rw [aluMul_eq_none, maxWord_lt_iff]
  | div dst src =>
    rw [effect]
    cases aluDiv (s.operand dst) (s.operand src) <;> rfl
  | _ => rfl

theorem ovf_of_retire {nextIp : Word} {s t : State} (h : retire nextIp s = .next t) : t.ovf = s.ovf := by
  obtain ⟨_, rfl⟩ | ⟨_, rfl⟩ := retire_cases h <;> simp

theorem writeChecked_setOvf (s : State) (a : Word) (r : Option Word) (b : Bool) :
    (s.setOvf b).writeChecked a r = (s.writeChecked a r).setOvf (overflowFlag r) := by
  cases r <;> rfl

/-- The effect with another `OVF` before differs at most in the `OVF` after (R39). -/
theorem exists_effect_setOvf (i : Instr) (s : State) (b : Bool) :
    ∃ c : Bool, effect i (s.setOvf b) = (effect i s).setOvf c := by
  cases i with
  | adi dst imm | sui dst imm | mul dst src =>
    rw [effect, writeChecked_setOvf]
    exact ⟨_, rfl⟩
  | div dst src =>
    have hop : ∀ f : Byte, (s.setOvf b).operand f = s.operand f := fun _ => rfl
    refine ⟨b, ?_⟩
    rw [effect, effect, hop, hop]
    cases aluDiv (s.operand dst) (s.operand src) <;> rfl
  | _ => exact ⟨b, rfl⟩

theorem exists_exec_setOvf {i : Instr} {s t : State} (b : Bool) (h : exec i s = .next t) :
    ∃ c : Bool, exec i (s.setOvf b) = .next (t.setOvf c) := by
  obtain ⟨c, heff⟩ := exists_effect_setOvf i s b
  obtain ⟨_, hexec⟩ | ⟨_, hexec⟩ := exec_of_passive (passive_setOvf b) (passive_setOvf c) (by cases i <;> rfl)
    (by cases i <;> rfl) (by cases i <;> rfl) heff h
  · exact ⟨b, hexec⟩
  · exact ⟨c, hexec⟩

/-! ## The queue and the image input -/

section
variable (q : List Byte) (image : BootImage) {i : Instr} {s t : State}

theorem emit_withPorts (s : State) (c : Byte) : (s.withPorts q image).emit c = (s.emit c).withPorts q image := by
  simp [State.emit, State.withPorts]

theorem effect_withPorts (i : Instr) (s : State) :
    effect i (s.withPorts q image) = (effect i s).withPorts q image := by
  have hop : ∀ f : Byte, (s.withPorts q image).operand f = s.operand f := fun _ => rfl
  have hwrite : ∀ (a : Word) (r : Option Word),
      (s.withPorts q image).writeChecked a r = (s.writeChecked a r).withPorts q image := fun a r => by cases r <;> rfl
  cases i with
  | adi dst imm | mul dst src => exact hwrite _ _
  | sui dst imm =>
    rw [effect, hwrite]
    rfl
  | prn addr => exact emit_withPorts q image s _
  | div dst src =>
    rw [effect, effect, hop, hop]
    cases aluDiv (s.operand dst) (s.operand src) <;> rfl
  | _ => rfl

theorem exec_withPorts (h : exec i s = .next t) : exec i (s.withPorts q image) = .next (t.withPorts q image) := by
  have hf := passive_withPorts q image
  obtain ⟨_, hexec⟩ | ⟨_, hexec⟩ := exec_of_passive hf hf (by cases i <;> rfl) (by cases i <;> rfl) (by cases i <;> rfl)
    (effect_withPorts q image i s) h
  · exact hexec
  · exact hexec

/-- A started core reads neither port (R238, R250). -/
theorem step_withPorts_of_started (hs : s.runState ≠ .idle) (h : step s = .next t) :
    step (s.withPorts q image) = .next (t.withPorts q image) := by
  obtain ⟨hc, ⟨hr, _⟩ | ⟨hr, hout, rfl⟩ | ⟨hr, w, hf, hexec⟩ | ⟨hr, rfl⟩⟩ := step_cases h
  · exact absurd hr hs
  · rw [← (passive_withPorts q image).faultEntry]
    exact (step_of_running (s := s.withPorts q image) hc hr).trans (engineStep_of_fetch_eq_none (fetch_eq_none.mpr hout))
  · calc step (s.withPorts q image)
        = engineStep (s.withPorts q image) := step_of_running hc hr
      _ = exec (decode w) (s.withPorts q image) := engineStep_of_fetch_eq_some hf
      _ = .next (t.withPorts q image) := exec_withPorts q image hexec
  · exact step_of_halted hc hr

theorem loaderStep_withPorts (himage : s.image = image) :
    loaderStep (s.withPorts q image) = (loaderStep s).withPorts q image := by
  cases hload : s.loadError with
  | true =>
    rw [loaderStep_of_loadError hload]
    exact loaderStep_of_loadError hload
  | false =>
    cases image with
    | absent =>
      rw [loaderStep_of_absent himage]
      exact loaderStep_of_absent rfl
    | unreadable =>
      rw [loaderStep_of_unreadable hload himage]
      exact loaderStep_of_unreadable (s := s.withPorts q .unreadable) hload rfl
    | bytes image =>
      by_cases hfit : imageFits image s.memWords = true
      · rw [loaderStep_of_fits hload himage hfit]
        exact loaderStep_of_fits (s := s.withPorts q (.bytes image)) hload rfl hfit
      · rw [loaderStep_of_misfit hload himage hfit]
        exact loaderStep_of_misfit (s := s.withPorts q (.bytes image)) hload rfl hfit

/-- The loader does not read the queue (R293). -/
theorem step_withPorts (h : step s = .next t) : step (s.withPorts q s.image) = .next (t.withPorts q s.image) := by
  by_cases hr : s.runState = .idle
  · obtain ⟨hc, ⟨_, rfl⟩ | ⟨hr', _⟩ | ⟨hr', _⟩ | ⟨hr', _⟩⟩ := step_cases h
    · rw [← loaderStep_withPorts q s.image rfl]
      exact step_of_idle hc hr
    all_goals simp [hr] at hr'
  · exact step_withPorts_of_started q s.image hr h

theorem length_printedBy_le (i : Instr) (s : State) : (printedBy i s).length ≤ 1 := by
  cases i with
  | prn addr =>
    rw [printedBy]
    split <;> simp
  | _ => exact Nat.zero_le 1

theorem length_printedByStep_le (s : State) : (printedByStep s).length ≤ 1 := by
  unfold printedByStep
  split
  · exact length_printedBy_le _ s
  · exact Nat.zero_le 1

/-- Whatever the queue holds, a step puts the same bytes at its tail and does the same to the rest (R238). -/
theorem step_with_outq (h : step s = .next t) :
    step { s with outq := q } = .next { t with outq := q ++ printedByStep s } := by
  obtain ⟨t₀, h₀, hnew⟩ := exists_step_outq (s := { s with outq := [] }) (step_cases h).1
  have hq : ∀ q' : List Byte, step { s with outq := q' } = .next (t₀.withPorts q' s.image) := fun q' => by
    simpa [State.withPorts] using step_withPorts q' h₀
  have ht : t = t₀.withPorts s.outq s.image := Host.Outcome.next.inj (h.symm.trans (hq s.outq))
  have hprint : t₀.outq = printedByStep s := hnew
  rw [hq, ht, ← hprint]
  rfl

end

/-! ## The words that an instruction does not read -/

/-- Both memories are kept, or the same word is stored in both. -/
def SameStore (m m' n n' : Memory) : Prop :=
  (m' = m ∧ n' = n) ∨ ∃ (a : Nat) (v : Word), m' = m.writeWord a v ∧ n' = n.writeWord a v

theorem SameStore.readWord {m m' n n' : Memory} (h : SameStore m m' n n') (j : Nat) :
    m'.readWord j = m.readWord j ∧ n'.readWord j = n.readWord j ∨ n'.readWord j = m'.readWord j := by
  obtain ⟨rfl, rfl⟩ | ⟨a, v, rfl, rfl⟩ := h
  · exact .inl ⟨rfl, rfl⟩
  · by_cases hj : j = a <;> simp [Memory.readWord_writeWord, hj]

section
variable {i : Instr} {s t : State} {m : Memory}

theorem exists_writeChecked_setMem (a : Word) (r : Option Word) :
    ∃ m' : Memory, (s.setMem m).writeChecked a r = (s.writeChecked a r).setMem m' ∧
      SameStore s.mem (s.writeChecked a r).mem m m' := by
  cases r with
  | none => exact ⟨m, rfl, .inl ⟨rfl, rfl⟩⟩
  | some v => exact ⟨m.writeWord a.toNat v, rfl, .inr ⟨_, v, rfl, rfl⟩⟩

theorem exists_writeOperand_setMem (f : Byte) (v : Word) :
    ∃ m' : Memory, (s.setMem m).writeOperand f v = (s.writeOperand f v).setMem m' ∧
      SameStore s.mem (s.writeOperand f v).mem m m' :=
  ⟨m.writeWord (directAddr f).toNat v, rfl, .inr ⟨_, v, rfl, rfl⟩⟩

/-! With another memory that agrees on the words an instruction reads. -/

variable (hread : ∀ a : Word, a ∈ readsOf i s → m.readWord a.toNat = s.mem.readWord a.toNat)
include hread

theorem operand_setMem {f : Byte} (hf : directAddr f ∈ readsOf i s) : (s.setMem m).operand f = s.operand f :=
  hread _ hf

/-- The effect stores the same word in both memories, and is otherwise the same (R78). -/
theorem exists_effect_setMem :
    ∃ m' : Memory, effect i (s.setMem m) = (effect i s).setMem m' ∧ SameStore s.mem (effect i s).mem m m' := by
  have hop : ∀ {f : Byte}, directAddr f ∈ readsOf i s → (s.setMem m).operand f = s.operand f := operand_setMem hread
  cases i with
  | mov dst src =>
    rw [effect, hop (by simp [readsOf])]
    exact exists_writeOperand_setMem dst _
  | str dst imm => exact exists_writeOperand_setMem dst _
  | adi dst imm =>
    rw [effect, hop (by simp [readsOf])]
    exact exists_writeChecked_setMem _ _
  | sui dst imm =>
    rw [effect, hop (by simp [readsOf])]
    obtain ⟨m', heq, hstore⟩ := exists_writeChecked_setMem (s := s) (m := m) (directAddr dst)
      (aluSub (s.operand dst) (immediate imm))
    rw [heq]
    exact ⟨m', rfl, hstore⟩
  | mul dst src =>
    rw [effect, hop (by simp [readsOf]), hop (by simp [readsOf])]
    exact exists_writeChecked_setMem _ _
  | div dst src =>
    rw [effect, effect, hop (by simp [readsOf]), hop (by simp [readsOf])]
    cases aluDiv (s.operand dst) (s.operand src) with
    | none => exact ⟨m, rfl, .inl ⟨rfl, rfl⟩⟩
    | some q => exact exists_writeOperand_setMem dst q
  | mop dst src =>
    have hptr : (s.setMem m).indirectOperand src = s.indirectOperand src := by
      rw [State.indirectOperand, hop (by simp [readsOf])]
      exact hread _ (by simp [readsOf])
    rw [effect, hptr]
    exact exists_writeOperand_setMem dst _
  | cmp x y =>
    rw [effect, hop (by simp [readsOf]), hop (by simp [readsOf])]
    exact ⟨m, rfl, .inl ⟨rfl, rfl⟩⟩
  | prn addr =>
    rw [effect, hop (by simp [readsOf])]
    exact ⟨m, rfl, .inl ⟨rfl, rfl⟩⟩
  | jmp target | jz target | eof | unknown opc => exact ⟨m, rfl, .inl ⟨rfl, rfl⟩⟩

theorem firstBadAddress_setMem : firstBadAddress i (s.setMem m) = firstBadAddress i s := by
  cases i with
  | mop dst src =>
    rw [firstBadAddress, addressesOf, operand_setMem hread (by simp [readsOf])]
    rfl
  | _ => rfl

theorem dividesByZero_setMem : dividesByZero i (s.setMem m) = dividesByZero i s := by
  cases i with
  | div dst src => rw [dividesByZero, operand_setMem hread (by simp [readsOf]), dividesByZero]
  | _ => rfl

theorem exists_exec_setMem (h : exec i s = .next t) :
    ∃ m' : Memory, exec i (s.setMem m) = .next (t.setMem m') ∧ SameStore s.mem t.mem m m' := by
  obtain ⟨m', heff, hstore⟩ := exists_effect_setMem hread
  obtain ⟨⟨r, rfl⟩, hexec⟩ | ⟨⟨_, hret⟩, hexec⟩ := exec_of_passive (passive_setMem m) (passive_setMem m')
    (firstBadAddress_setMem hread) (dividesByZero_setMem hread) (by cases i <;> rfl) heff h
  · exact ⟨m, hexec, .inl ⟨faultEntry_mem s r, rfl⟩⟩
  · exact ⟨m', hexec, mem_of_retire hret ▸ hstore⟩

end

end Sys2Proof.Machine
end

section
/-! The statements about what an instruction, a step and a pop read and leave unread (10_state.md, 20_memory.md,
44_output_halt.md). -/

namespace Sys2Proof.Machine

/-- Settles O30: a fault keeps `OVF`, and so does every effect but those of the checked operations. -/
theorem ovfIsWrittenByCheckedOperationsAndReadByNone : Obligations.OvfIsWrittenByCheckedOperationsAndReadByNone := by
  refine ⟨State.resetWith_ovf _, fun i s t h => ?_, fun i s t b h => ?_⟩
  · obtain ⟨a, hbad, rfl⟩ | ⟨hbad, hdiv, rfl⟩ | ⟨hbad, _, hret⟩ := exec_outcomes h
    · rw [hbad]
      exact faultEntry_ovf s _
    · obtain ⟨dst, src, rfl, _⟩ := exists_div_of_dividesByZero hdiv
      rw [hbad]
      exact faultEntry_ovf s _
    · rw [hbad, ovf_of_retire hret, effect_ovf]
      cases i <;> rfl
  · obtain ⟨c, hexec⟩ := exists_exec_setOvf b h
    exact ⟨t.setOvf c, hexec, rfl⟩

/-- Settles O36: an instruction stores at most the word of `writesOf`, and stores the same in a memory that agrees on what it
reads. -/
theorem instructionsReadAndWriteOnlyTheirOperands : Obligations.InstructionsReadAndWriteOnlyTheirOperands := by
  refine fun i s t h => ⟨fun b hb => ?_, fun m hread => ?_⟩
  · obtain hmem | ⟨a, v, ha, hmem⟩ := mem_of_exec h
    · rw [hmem]
    · rw [hmem, Memory.readByte_writeWord_outside _ _ _ _ (hb a ha)]
  · obtain ⟨m', hexec, hstore⟩ := exists_exec_setMem hread h
    exact ⟨m', hexec, hstore.readWord⟩

/-- Settles O47: what a step prints does not depend on the queue, and it goes to the tail. -/
theorem stepsOnlyAppendToTheQueue : Obligations.StepsOnlyAppendToTheQueue := by
  intro s t h
  obtain ⟨t', h', hnew⟩ := exists_step_outq (step_cases h).1
  obtain rfl : t = t' := Host.Outcome.next.inj (h.symm.trans h')
  exact ⟨printedByStep s, length_printedByStep_le s, hnew, fun q => step_with_outq q h⟩

/-- Settles O48: the step appends behind the head that the pop takes, and does the same without that head. -/
theorem popAndStepCommute : Obligations.PopAndStepCommute := by
  intro s s₁ t c hpop hstep
  obtain ⟨rest, hq, rfl⟩ := popOutput_eq_some.mp hpop
  obtain ⟨new, _, hnew, hany⟩ := stepsOnlyAppendToTheQueue s t hstep
  refine ⟨_, hany rest, popOutput_eq_some.mpr ⟨rest ++ new, ?_, rfl⟩⟩
  rw [hnew, hq, List.cons_append]

/-- Settles O50: only the loader reads the image input, and a started core is past the load. -/
theorem imageInputIsNotReadAfterTheLoad : Obligations.ImageInputIsNotReadAfterTheLoad :=
  fun _ _ image hs h => step_withPorts_of_started [] image hs h

/-- Settles O27: in Halted a step answers the same state, and of the host's actions only the pop is enabled. -/
theorem haltedKeepsEverythingButTheQueue : Obligations.HaltedKeepsEverythingButTheQueue := by
  refine fun s hc hr => ⟨step_of_halted hc hr, fun image => if_neg (by simp [hr]), fun c t hpop => ?_⟩
  obtain ⟨rest, _, rfl⟩ := popOutput_eq_some.mp hpop
  rfl

end Sys2Proof.Machine
end

section
/-! SUPPORT. The block's outputs as functions of `RUNSTATE`, `OUTQ` and `FAULT` (R238, R250). -/

namespace Sys2Proof.Machine

section
variable {s : State}

theorem outValid_iff : outValid s = true ↔ s.outq ≠ [] := by
  simp [outValid]

theorem haltedOut_iff : haltedOut s = true ↔ s.runState = .halted := by
  simp [haltedOut]

theorem runComplete_iff : runComplete s = true ↔ s.runState = .halted ∧ s.outq = [] := by
  rw [runComplete, Bool.and_eq_true, haltedOut_iff, Bool.not_eq_true', ← Bool.not_eq_true, outValid_iff, not_not]

end

end Sys2Proof.Machine
end

section
/-! The statements about the block's outputs (44_output_halt.md). -/

namespace Sys2Proof.Machine

/-- Settles O45: an empty queue has no head to show or to take. -/
theorem popTakesTheHeadExactlyWhenValid : Obligations.PopTakesTheHeadExactlyWhenValid := by
  refine fun s => ⟨outValid_iff, fun hvalid => ?_, fun hempty => ?_⟩
  · obtain ⟨c, rest, hq⟩ := List.exists_cons_of_ne_nil (outValid_iff.mp hvalid)
    exact ⟨c, rest, hq, by rw [outData, hq, List.head?_cons], popOutput_eq_some.mpr ⟨rest, hq, rfl⟩⟩
  · have hq : s.outq = [] := by simpa [outValid] using hempty
    rw [popOutput, hq]

/-- Settles O46: each output is read off its field, the fault outputs by the kind of the record. -/
theorem statusOutputsShowTheRecord : Obligations.StatusOutputsShowTheRecord := by
  refine fun s => ⟨haltedOut_iff, runComplete_iff, fun h => ?_, fun fip addr h => ?_, fun fip h => ?_⟩
  all_goals simp [faultKind, faultIp, faultAddr, h]

end Sys2Proof.Machine
end
